-- ==== Sys2Proof/Word.lean ====
section
/-! DEFINITION. The widths of the machine's values (00_scope.md R3): every value is unsigned (R5). -/

namespace Sys2Proof

/-- A byte of memory or a general register (R3, `XLEN`). -/
abbrev Byte := BitVec 8

/-- An opcode, `I`, `PC` or a return address (R3). -/
abbrev Word := BitVec 16

/-- A register index field, a row count or a hexadecimal digit (R61: `op`, `x`, `y`, `n`). -/
abbrev Nibble := BitVec 4

/-- A 12-bit address field `nnn` (R61), or `FONT_BASE` (R3). -/
abbrev Addr12 := BitVec 12

/-- The sampled keypad: bit `k` is 1 when logical key `k` is down (R214). -/
abbrev Keys := BitVec 16

end Sys2Proof
end

