-- ==== Sys2Proof/Syntax.lean ====
section
/-! DEFINITION. The instructions: one constructor per row of spec/opcode_table.json, in the order of R66. A field is
exactly as wide as the encoding gives it (R61, R65), so that no operand out of range can be written down. -/

namespace Sys2Proof

/-- The 34 instructions of 30_encoding.md R66. `x`, `y` name registers, `nn` is an 8-bit immediate, `nnn` a 12-bit
address, `n` a row count (R61). -/
inductive Instr where
  /-- 00E0 `CLS` (R170). -/
  | cls
  /-- 00EE `RET` (R100). -/
  | ret
  /-- 1nnn `JUMP nnn` (R101). -/
  | jump (nnn : Addr12)
  /-- 2nnn `CALL nnn` (R102). -/
  | call (nnn : Addr12)
  /-- 3xnn `SKIP.EQ Vx, nn` (R103). -/
  | skipEqImm (x : Nibble) (nn : Byte)
  /-- 4xnn `SKIP.NE Vx, nn` (R104). -/
  | skipNeImm (x : Nibble) (nn : Byte)
  /-- 5xy0 `SKIP.EQ Vx, Vy` (R105). -/
  | skipEqReg (x y : Nibble)
  /-- 6xnn `MVI Vx, nn` (R121). -/
  | mvi (x : Nibble) (nn : Byte)
  /-- 7xnn `ADI Vx, nn` (R122). -/
  | adi (x : Nibble) (nn : Byte)
  /-- 8xy0 `MOV Vx, Vy` (R123). -/
  | mov (x y : Nibble)
  /-- 8xy1 `OR Vx, Vy` (R124). -/
  | or (x y : Nibble)
  /-- 8xy2 `AND Vx, Vy` (R125). -/
  | and (x y : Nibble)
  /-- 8xy3 `XOR Vx, Vy` (R126). -/
  | xor (x y : Nibble)
  /-- 8xy4 `ADD. Vx, Vy` (R127). -/
  | add (x y : Nibble)
  /-- 8xy5 `SUB. Vx, Vy` (R128). -/
  | sub (x y : Nibble)
  /-- 8xy6 `SHR. Vx, Vy` (R129). -/
  | shr (x y : Nibble)
  /-- 8xy7 `SUBN. Vx, Vy` (R130). -/
  | subn (x y : Nibble)
  /-- 8xyE `SHL. Vx, Vy` (R131). -/
  | shl (x y : Nibble)
  /-- 9xy0 `SKIP.NE Vx, Vy` (R106). -/
  | skipNeReg (x y : Nibble)
  /-- Annn `MVI I, nnn` (R150). -/
  | mviI (nnn : Addr12)
  /-- Bnnn `JUMP+V0 nnn` (R107). -/
  | jumpV0 (nnn : Addr12)
  /-- Cxnn `RNDMSK Vx, nn` (R132). -/
  | rndmsk (x : Nibble) (nn : Byte)
  /-- Dxyn `DRAW Vx, Vy, n` (R171). -/
  | draw (x y n : Nibble)
  /-- Ex9E `SKIPKEY.Y Vx` (R172). -/
  | skipKeyY (x : Nibble)
  /-- ExA1 `SKIPKEY.N Vx` (R173). -/
  | skipKeyN (x : Nibble)
  /-- Fx07 `MOV Vx, DT` (R190). -/
  | movVxDt (x : Nibble)
  /-- Fx0A `KEY Vx` (R174). -/
  | key (x : Nibble)
  /-- Fx15 `MOV DT, Vx` (R191). -/
  | movDtVx (x : Nibble)
  /-- Fx18 `MOV ST, Vx` (R192). -/
  | movStVx (x : Nibble)
  /-- Fx1E `ADI I, Vx` (R151). -/
  | adiI (x : Nibble)
  /-- Fx29 `SPRITECHAR Vx` (R152). -/
  | spriteChar (x : Nibble)
  /-- Fx33 `MOVBCD Vx` (R153). -/
  | movBcd (x : Nibble)
  /-- Fx55 `MOVM [I], V0..Vx` (R154). -/
  | movmStore (x : Nibble)
  /-- Fx65 `MOVM V0..Vx, [I]` (R155). -/
  | movmLoad (x : Nibble)
deriving DecidableEq, Repr

end Sys2Proof
end

