-- ==== Sys2Proof/Decode.lean ====
section
/-! DEFINITION. The decoder (30_encoding.md R61), the dispatch from its fields to an instruction (R66, R67), the
opcode table as mask and match values (R66), and the encoder, written from the patterns of the same table. -/

namespace Sys2Proof

/-- The decoder's seven outputs (R61, R202): six fields and the word passed through. -/
structure Fields where
  op : Nibble
  x : Nibble
  y : Nibble
  n : Nibble
  nn : Byte
  nnn : Addr12
  word : Word
deriving DecidableEq, Repr

/-- `decode` of R61: the fields by fixed bit positions, for every word. -/
def decodeFields (o : Word) : Fields :=
  { op := o.extractLsb' 12 4
    x := o.extractLsb' 8 4
    y := o.extractLsb' 4 4
    n := o.extractLsb' 0 4
    nn := o.extractLsb' 0 8
    nnn := o.extractLsb' 0 12
    word := o }

/-- Class 8 by its function code `n` (R67). -/
def dispatchAlu (f : Fields) : Option Instr :=
  match f.n.toNat with
  | 0x0 => some (.mov f.x f.y)
  | 0x1 => some (.or f.x f.y)
  | 0x2 => some (.and f.x f.y)
  | 0x3 => some (.xor f.x f.y)
  | 0x4 => some (.add f.x f.y)
  | 0x5 => some (.sub f.x f.y)
  | 0x6 => some (.shr f.x f.y)
  | 0x7 => some (.subn f.x f.y)
  | 0xE => some (.shl f.x f.y)
  | _ => none

/-- Class F by its function code `nn` (R67). -/
def dispatchMisc (f : Fields) : Option Instr :=
  match f.nn.toNat with
  | 0x07 => some (.movVxDt f.x)
  | 0x0A => some (.key f.x)
  | 0x15 => some (.movDtVx f.x)
  | 0x18 => some (.movStVx f.x)
  | 0x1E => some (.adiI f.x)
  | 0x29 => some (.spriteChar f.x)
  | 0x33 => some (.movBcd f.x)
  | 0x55 => some (.movmStore f.x)
  | 0x65 => some (.movmLoad f.x)
  | _ => none

/-- `Dispatch` of R66, by class as R67 writes it. `none` is `Illegal`. -/
def dispatch (f : Fields) : Option Instr :=
  match f.op.toNat with
  | 0x0 =>
    if f.nnn = 0x0E0 then some .cls
    else if f.nnn = 0x0EE then some .ret
    else none
  | 0x1 => some (.jump f.nnn)
  | 0x2 => some (.call f.nnn)
  | 0x3 => some (.skipEqImm f.x f.nn)
  | 0x4 => some (.skipNeImm f.x f.nn)
  | 0x5 => if f.n = 0x0 then some (.skipEqReg f.x f.y) else none
  | 0x6 => some (.mvi f.x f.nn)
  | 0x7 => some (.adi f.x f.nn)
  | 0x8 => dispatchAlu f
  | 0x9 => if f.n = 0x0 then some (.skipNeReg f.x f.y) else none
  | 0xA => some (.mviI f.nnn)
  | 0xB => some (.jumpV0 f.nnn)
  | 0xC => some (.rndmsk f.x f.nn)
  | 0xD => some (.draw f.x f.y f.n)
  | 0xE =>
    if f.nn = 0x9E then some (.skipKeyY f.x)
    else if f.nn = 0xA1 then some (.skipKeyN f.x)
    else none
  | 0xF => dispatchMisc f
  | _ => none

/-- Why bytes are not an instruction. -/
inductive DecodeError where
  /-- Fewer than the two bytes every instruction has (R60). -/
  | truncated
  /-- The word is none of the 34 instructions (R68). -/
  | illegalOpcode (word : Word)
deriving DecidableEq, Repr

/-- A word's instruction, or its rejection by name (R66, R68). -/
def decode (w : Word) : Except DecodeError Instr :=
  match dispatch (decodeFields w) with
  | some i => .ok i
  | none => .error (.illegalOpcode w)

/-- The word two bytes make: the byte at the lower address is bits 15 to 8 (R44). -/
def wordOfBytes (hi lo : Byte) : Word := hi ++ lo

/-- The high byte of a word, stored at the lower address (R44). -/
def highByte (w : Word) : Byte := w.extractLsb' 8 8

/-- The low byte of a word, stored at the higher address (R44). -/
def lowByte (w : Word) : Byte := w.extractLsb' 0 8

/-- Decoding from a list of bytes: always exactly two bytes (R60), the rest handed back. -/
def decodeBytes : List Byte → Except DecodeError (Instr × List Byte)
  | hi :: lo :: rest =>
    match decode (wordOfBytes hi lo) with
    | .ok i => .ok (i, rest)
    | .error e => .error e
  | _ => .error .truncated

/-- One row of the opcode table (R66): a word is the row's when its bits under `mask` are `pattern`. -/
structure OpcodeRow where
  mask : Word
  pattern : Word
deriving DecidableEq, Repr

/-- The word is the row's. -/
def OpcodeRow.covers (r : OpcodeRow) (w : Word) : Bool := w &&& r.mask = r.pattern

/-- The column "mask / match" of R66, rows 1 to 34 in order. -/
def opcodeRows : List OpcodeRow :=
  [⟨0xFFFF, 0x00E0⟩, ⟨0xFFFF, 0x00EE⟩, ⟨0xF000, 0x1000⟩, ⟨0xF000, 0x2000⟩, ⟨0xF000, 0x3000⟩, ⟨0xF000, 0x4000⟩,
    ⟨0xF00F, 0x5000⟩, ⟨0xF000, 0x6000⟩, ⟨0xF000, 0x7000⟩] ++
  [⟨0xF00F, 0x8000⟩, ⟨0xF00F, 0x8001⟩, ⟨0xF00F, 0x8002⟩, ⟨0xF00F, 0x8003⟩, ⟨0xF00F, 0x8004⟩, ⟨0xF00F, 0x8005⟩,
    ⟨0xF00F, 0x8006⟩, ⟨0xF00F, 0x8007⟩, ⟨0xF00F, 0x800E⟩] ++
  [⟨0xF00F, 0x9000⟩, ⟨0xF000, 0xA000⟩, ⟨0xF000, 0xB000⟩, ⟨0xF000, 0xC000⟩, ⟨0xF000, 0xD000⟩, ⟨0xF0FF, 0xE09E⟩,
    ⟨0xF0FF, 0xE0A1⟩] ++
  [⟨0xF0FF, 0xF007⟩, ⟨0xF0FF, 0xF00A⟩, ⟨0xF0FF, 0xF015⟩, ⟨0xF0FF, 0xF018⟩, ⟨0xF0FF, 0xF01E⟩, ⟨0xF0FF, 0xF029⟩,
    ⟨0xF0FF, 0xF033⟩, ⟨0xF0FF, 0xF055⟩, ⟨0xF0FF, 0xF065⟩]

/-- The row of R66 an instruction stands in, counted from 0. -/
def Instr.row : Instr → Nat
  | .cls => 0
  | .ret => 1
  | .jump _ => 2
  | .call _ => 3
  | .skipEqImm _ _ => 4
  | .skipNeImm _ _ => 5
  | .skipEqReg _ _ => 6
  | .mvi _ _ => 7
  | .adi _ _ => 8
  | .mov _ _ => 9
  | .or _ _ => 10
  | .and _ _ => 11
  | .xor _ _ => 12
  | .add _ _ => 13
  | .sub _ _ => 14
  | .shr _ _ => 15
  | .subn _ _ => 16
  | .shl _ _ => 17
  | .skipNeReg _ _ => 18
  | .mviI _ => 19
  | .jumpV0 _ => 20
  | .rndmsk _ _ => 21
  | .draw _ _ _ => 22
  | .skipKeyY _ => 23
  | .skipKeyN _ => 24
  | .movVxDt _ => 25
  | .key _ => 26
  | .movDtVx _ => 27
  | .movStVx _ => 28
  | .adiI _ => 29
  | .spriteChar _ => 30
  | .movBcd _ => 31
  | .movmStore _ => 32
  | .movmLoad _ => 33

/-- Formats XYN and the four single nibbles of a word (R64). -/
def wordXYN (op x y n : Nibble) : Word := op ++ x ++ y ++ n

/-- Formats XNN and XFN (R64). -/
def wordXNN (op x : Nibble) (nn : Byte) : Word := op ++ x ++ nn

/-- Formats NNN and FIXED (R64). -/
def wordNNN (op : Nibble) (nnn : Addr12) : Word := op ++ nnn

/-- The word of an instruction, from the pattern column of R66. -/
def encode : Instr → Word
  | .cls => wordNNN 0x0 0x0E0
  | .ret => wordNNN 0x0 0x0EE
  | .jump nnn => wordNNN 0x1 nnn
  | .call nnn => wordNNN 0x2 nnn
  | .skipEqImm x nn => wordXNN 0x3 x nn
  | .skipNeImm x nn => wordXNN 0x4 x nn
  | .skipEqReg x y => wordXYN 0x5 x y 0x0
  | .mvi x nn => wordXNN 0x6 x nn
  | .adi x nn => wordXNN 0x7 x nn
  | .mov x y => wordXYN 0x8 x y 0x0
  | .or x y => wordXYN 0x8 x y 0x1
  | .and x y => wordXYN 0x8 x y 0x2
  | .xor x y => wordXYN 0x8 x y 0x3
  | .add x y => wordXYN 0x8 x y 0x4
  | .sub x y => wordXYN 0x8 x y 0x5
  | .shr x y => wordXYN 0x8 x y 0x6
  | .subn x y => wordXYN 0x8 x y 0x7
  | .shl x y => wordXYN 0x8 x y 0xE
  | .skipNeReg x y => wordXYN 0x9 x y 0x0
  | .mviI nnn => wordNNN 0xA nnn
  | .jumpV0 nnn => wordNNN 0xB nnn
  | .rndmsk x nn => wordXNN 0xC x nn
  | .draw x y n => wordXYN 0xD x y n
  | .skipKeyY x => wordXNN 0xE x 0x9E
  | .skipKeyN x => wordXNN 0xE x 0xA1
  | .movVxDt x => wordXNN 0xF x 0x07
  | .key x => wordXNN 0xF x 0x0A
  | .movDtVx x => wordXNN 0xF x 0x15
  | .movStVx x => wordXNN 0xF x 0x18
  | .adiI x => wordXNN 0xF x 0x1E
  | .spriteChar x => wordXNN 0xF x 0x29
  | .movBcd x => wordXNN 0xF x 0x33
  | .movmStore x => wordXNN 0xF x 0x55
  | .movmLoad x => wordXNN 0xF x 0x65

/-- The two bytes of an instruction as memory holds them (R44). -/
def encodeBytes (i : Instr) : List Byte := [highByte (encode i), lowByte (encode i)]

/-- The instruction the decoder reads from a word numbered as spec/opcode_table.json numbers it: bit 0 is the word's
least significant bit, `nbits` bits are given and the bits above are 0. -/
def decodeTableWord (nbits w : Nat) : Option Instr :=
  let word : Word := BitVec.ofNat 16 (w % 2 ^ nbits)
  match decodeBytes [highByte word, lowByte word] with
  | .ok (i, _) => some i
  | .error _ => none

end Sys2Proof
end

