-- ==== Sys2Proof/Config.lean ====
section
/-! DEFINITION. The configuration of a run (70_reset_and_hazards.md R303): what is constant from one reset to
the next, and the free inputs of a step. -/

namespace Sys2Proof

/-- The configuration of a run, constant after reset (R22, R293, R303). -/
structure Config where
  /-- `SHIFT_QUIRK`: true = modern (shift `Vx` in place), false = legacy (shift `Vy`) (R22). -/
  shiftQuirk : Bool
  /-- `FONT_BASE`, an OPEN parameter (R3, R46). -/
  fontBase : Addr12
  /-- `FONT_DATA`, 80 bytes in address order, glyph 0 first (R46, R47). -/
  fontData : List Byte
deriving DecidableEq, Repr

/-- One step's inputs, sampled together when the step is accepted (R201, R214, R215). -/
structure StepInput where
  /-- `KEYS`: a free 16-bit input of every step (R214). -/
  keys : Keys
  /-- `RND`: a free 8-bit input of every step, under no law (R215). -/
  rnd : Byte
deriving DecidableEq, Repr, Inhabited

/-- The input of the `k`-th step whose input the environment has not scheduled: a free value, nothing constrains
it (R214, R215: "free ... under no law"). DESIGN CHOICE of the form only; log 1, safe. -/
opaque Config.freeInput : Nat → StepInput

end Sys2Proof
end

