-- ==== Sys2Proof/Machine/Font.lean ====
section
/-! DEFINITION. The font table of 20_memory.md section 4 and the default configuration of R303. -/

namespace Sys2Proof

/-- `FONT_STRIDE`: bytes per glyph (R3, R46). PRESUMED by the spec itself (G1); log 2. -/
def fontStride : Nat := 5

/-- `FONT_DATA` of R47, one glyph a line. PRESUMED by the spec itself (G2, general knowledge); log 2. -/
def customaryFont : List Byte :=
  [0xF0, 0x90, 0x90, 0x90, 0xF0] ++
  [0x20, 0x60, 0x20, 0x20, 0x70] ++
  [0xF0, 0x10, 0xF0, 0x80, 0xF0] ++
  [0xF0, 0x10, 0xF0, 0x10, 0xF0] ++
  [0x90, 0x90, 0xF0, 0x10, 0x10] ++
  [0xF0, 0x80, 0xF0, 0x10, 0xF0] ++
  [0xF0, 0x80, 0xF0, 0x90, 0xF0] ++
  [0xF0, 0x10, 0x20, 0x40, 0x40] ++
  [0xF0, 0x90, 0xF0, 0x90, 0xF0] ++
  [0xF0, 0x90, 0xF0, 0x10, 0xF0] ++
  [0xF0, 0x90, 0xF0, 0x90, 0x90] ++
  [0xE0, 0x90, 0xE0, 0x90, 0xE0] ++
  [0xF0, 0x80, 0x80, 0x80, 0xF0] ++
  [0xE0, 0x90, 0x90, 0x90, 0xE0] ++
  [0xF0, 0x80, 0xF0, 0x80, 0xF0] ++
  [0xF0, 0x80, 0xF0, 0x80, 0x80]

/-- The defaults of R303: modern shifts, `FONT_BASE` = 0x050, the customary font. PRESUMED by the spec itself
(G7 for the base); log 2. -/
def Config.standard : Config :=
  { shiftQuirk := true, fontBase := 0x050, fontData := customaryFont }

end Sys2Proof
end

