-- ==== Sys2Proof/Machine/State.lean ====
section
/-! DEFINITION. The machine's state as plain data (10_state.md R10, the closed list), its reset (R30), and the
reasons a step can stop (60_exceptions.md R250 to R256). -/

namespace Sys2Proof.Machine

/-- `MEM`, sparse: address and byte pairs, addresses strictly rising, none equal to the reset content of its address
(which is what an address that is not listed reads as). -/
abbrev Memory := List Host.Cell

/-- `FB`: 32 rows of 64 cells, true = lit (R26). -/
abbrev Display := Vector (Vector Bool 64) 32

/-- The state of R10. The last two fields are the model's own: the inputs of the coming steps (log 1). -/
structure State where
  /-- `V[0]` to `V[15]`; VF is `V[15]` (R11, R14). -/
  v : Vector Byte 16
  /-- `I` (R19). -/
  i : Word
  /-- `PC` (R16). -/
  pc : Word
  /-- `SP`: the number of return addresses on the stack, 0 to 16 (R20); log 3. -/
  sp : Fin 17
  /-- `STK[0]` to `STK[15]` (R24). -/
  stk : Vector Word 16
  /-- `DT` (R21). -/
  dt : Byte
  /-- `ST` (R21). -/
  st : Byte
  /-- `MEM` (R25, R40). -/
  mem : Memory
  /-- `FB` (R26). -/
  fb : Display
  /-- `SHIFT_QUIRK` and the font parameters, constant after reset (R22, R303). -/
  cfg : Config
  /-- MODEL'S OWN: the inputs already scheduled for the coming steps, the next step's first; log 1. -/
  pending : List StepInput
  /-- MODEL'S OWN: how many steps have run on an input that was not scheduled; log 1. -/
  drawn : Nat
deriving DecidableEq, Repr

/-- The faults of a step (R250): precise, without effect, not latched (R258, R259). Each carries what the fault
record of R256, R257 holds besides its code. Safe: the state is exactly the state before the step, and a further step
faults again (R261). -/
inductive Fault where
  /-- Code 1, raised at dispatch by any word that is none of the 34 instructions (R251). -/
  | illegalOpcode (word pc : Word)
  /-- Code 2, raised by CALL with `SP == 16` (R252). -/
  | stackOverflow (word pc : Word)
  /-- Code 3, raised by RET with `SP == 0` (R253). -/
  | stackUnderflow (word pc : Word)
  /-- Code 4, raised by the fetch, by DRAW, MOVBCD and the two MOVM on an address above 0xFFF, and by SKIPKEY.Y,
  SKIPKEY.N and SPRITECHAR on an index above 15; `info` is the offending address or index (R254). -/
  | indexOutOfRange (word pc : Word) (info : BitVec 17)
deriving DecidableEq, Repr

/-- What the model does not run. -/
inductive Refusal where
  /-- An instruction without a meaning. Raised by `exec` alone; no arm uses it. Safe. -/
  | notModelled (mnemonic : String)
  /-- `RomLoadError`, code 5: raised by `launch` on a ROM that does not fit (R255). Safe: the launch is not run. -/
  | romLoadError
  /-- Raised by `launch` on a configuration R303 does not allow. Safe: the launch is not run. -/
  | configIllegal
deriving DecidableEq, Repr

/-- The outcome of an instruction or a step. -/
abbrev Result := Host.Outcome State Fault Refusal

/-- Reset with a sampled configuration: R30, with an empty memory list because what is not listed reads as the reset
content (R42, R46). The two fields of the inputs are DESIGN CHOICE; log 1. -/
def State.resetWith (c : Config) : State :=
  { v := Vector.replicate 16 0
    i := 0
    pc := 0x0200
    sp := 0
    stk := Vector.replicate 16 0
    dt := 0
    st := 0
    mem := []
    fb := Vector.replicate 32 (Vector.replicate 64 false)
    cfg := c
    pending := []
    drawn := 0 }

/-- The machine right after reset, with the default configuration of R303 (log 2). -/
def State.reset : State := State.resetWith Config.standard

end Sys2Proof.Machine
end

