-- ==== Sys2Proof/Machine/Ops.lean ====
section
/-! DEFINITION. The named operations over memory, registers, stack, display and timers that every meaning is written
over; raising a fault, fetching, and ending a step. -/

namespace Sys2Proof.Machine

/-! ### Memory -/

/-- The highest address (R40). -/
def memTop : Nat := 0xFFF

/-- The reset content of an address: the font table at `FONT_BASE`, 0x00 everywhere else (R30, R42, R46). What an
address that is not listed reads as. -/
def resetByte (c : Config) (a : Nat) : Byte :=
  if c.fontBase.toNat ≤ a ∧ a < c.fontBase.toNat + 80 then c.fontData.getD (a - c.fontBase.toNat) 0 else 0

/-- `MEM[a]` (R6). -/
def Memory.get (c : Config) : Memory → Nat → Byte
  | [], a => resetByte c a
  | (k, b) :: m, a => if a = k then b else Memory.get c m a

/-- List a byte at its place in rising order. -/
def Memory.insert : Memory → Nat → Byte → Memory
  | [], a, b => [(a, b)]
  | (k, v) :: m, a, b =>
    if a < k then (a, b) :: (k, v) :: m
    else if a = k then (a, b) :: m
    else (k, v) :: Memory.insert m a b

/-- `MEM[a] <- b` (R6), keeping the canonical form: a byte equal to the reset content is not listed. -/
def Memory.put (c : Config) (m : Memory) (a : Nat) (b : Byte) : Memory :=
  if b = resetByte c a then m.filter (fun cell => cell.1 ≠ a) else Memory.insert m a b

/-- The canonical form: addresses strictly rising and in range (R40), no entry equal to its reset content. -/
abbrev Memory.wf (c : Config) (m : Memory) : Prop :=
  (m.map Prod.fst).Pairwise (· < ·) ∧ ∀ cell ∈ m, cell.1 ≤ memTop ∧ cell.2 ≠ resetByte c cell.1

/-- `MEM[a]` of the state. -/
def State.readByte (s : State) (a : Nat) : Byte := Memory.get s.cfg s.mem a

/-- `MEM[a] <- b`. -/
def State.writeByte (s : State) (a : Nat) (b : Byte) : State := { s with mem := Memory.put s.cfg s.mem a b }

/-- The `n` bytes from address `a` on, the lowest address first (R45). -/
def State.readBytes (s : State) (a n : Nat) : List Byte := (List.range n).map fun r => s.readByte (a + r)

/-- Bytes stored from address `a` on, the first at the lowest address (R45). -/
def State.writeBytes (s : State) : Nat → List Byte → State
  | _, [] => s
  | a, b :: bs => State.writeBytes (s.writeByte a b) (a + 1) bs

/-- The range check of an access of `n` bytes at `addr` (R41, R43): the exact sum against 0xFFF, and when it fails the
lowest byte address of the access that is out of range. No bytes, no fault. -/
def accessFault (addr n : Nat) : Option (BitVec 17) :=
  if n ≠ 0 ∧ addr + n - 1 > memTop then some (BitVec.ofNat 17 (max addr 0x1000)) else none

/-! ### Registers and the program counter -/

/-- `V[x]` (R11). -/
def State.getV (s : State) (x : Nibble) : Byte := s.v[x.toNat]'x.isLt

/-- `V[x] <- b` (R11). -/
def State.setV (s : State) (x : Nibble) (b : Byte) : State := { s with v := s.v.set x.toNat b x.isLt }

/-- `V[15] <- f` as a flag: exactly 0x00 or 0x01 (R14). Written after the result, so that it wins (R15, R206; the
spec's decision D10; log 4). -/
def State.setFlag (s : State) (f : Bool) : State := s.setV 15 (if f then 1 else 0)

/-- `advance`: `PC <- (PC + 2) mod 65536` (R6, R16). -/
def State.advance (s : State) : State := { s with pc := s.pc + 2 }

/-- `skip` when the condition holds, else `advance` (R6, R16). -/
def State.skipIf (s : State) (c : Bool) : State := { s with pc := if c then s.pc + 4 else s.pc + 2 }

/-! ### The call stack -/

/-- Push a return address: `STK[SP] <- a ; SP <- SP + 1`; nothing when the stack is full (R24, R102, R208). -/
def State.push (s : State) (a : Word) : Option State :=
  if h : s.sp.val < 16 then
    some { s with stk := s.stk.set s.sp.val a h, sp := ⟨s.sp.val + 1, Nat.succ_lt_succ h⟩ }
  else none

/-- Pop: `STK[SP - 1]`, and the state with `SP <- SP - 1`; nothing when the stack is empty. The popped slot keeps its
value (R24, R100, R208). -/
def State.pop (s : State) : Option (Word × State) :=
  if h : s.sp.val = 0 then none
  else
    have lt : s.sp.val - 1 < 16 := by have := s.sp.isLt; omega
    some (s.stk[s.sp.val - 1], { s with sp := ⟨s.sp.val - 1, Nat.lt_succ_of_lt lt⟩ })

/-! ### The display -/

/-- `FB[r][c]` (R6). -/
def Display.cell (fb : Display) (r : Fin 32) (c : Fin 64) : Bool := fb[r][c]

/-- `FB[r][c] <- FB[r][c] ^ 1` (R171). -/
def Display.toggle (fb : Display) (r : Fin 32) (c : Fin 64) : Display := fb.set r (fb[r].set c (!fb[r][c]))

/-- Every cell unlit (R170). -/
def Display.clear : Display := Vector.replicate 32 (Vector.replicate 64 false)

/-- `n mod 32`: a display row, around the bottom edge (R171). -/
def wrapRow (n : Nat) : Fin 32 := ⟨n % 32, Nat.mod_lt n (by decide)⟩

/-- `n mod 64`: a display column, around the right edge (R171). -/
def wrapCol (n : Nat) : Fin 64 := ⟨n % 64, Nat.mod_lt n (by decide)⟩

/-- One column of one sprite row: bit `7 - col` set toggles the cell `(y mod 32, (x0 + col) mod 64)` and notes whether
it was lit (R171; bit 7 leftmost is the spec's decision D13; log 5). -/
def drawPixel (x0 y : Nat) (bits : Byte) (acc : Display × Bool) (col : Nat) : Display × Bool :=
  if bits.getLsbD (7 - col) then
    (acc.1.toggle (wrapRow y) (wrapCol (x0 + col)), acc.2 || acc.1.cell (wrapRow y) (wrapCol (x0 + col)))
  else acc

/-- One sprite row: columns 0 to 7 (R171). -/
def drawRow (x0 y : Nat) (bits : Byte) (acc : Display × Bool) : Display × Bool :=
  (List.range 8).foldl (drawPixel x0 y bits) acc

/-- The rows of a sprite from screen row `y` downwards: the new display and whether a lit cell was turned off (R171). -/
def drawSprite (x0 : Nat) : Nat → List Byte → Display × Bool → Display × Bool
  | _, [], acc => acc
  | y, bits :: rest, acc => drawSprite x0 (y + 1) rest (drawRow x0 y bits acc)

/-! ### Timers and the inputs of the step -/

/-- The tick of one timer, saturating at 0 (R211). -/
def tickTimer (t : Byte) : Byte := if t > 0 then t - 1 else 0

/-- The tick (R266): each timer on its own. -/
def State.tick (s : State) : State := { s with dt := tickTimer s.dt, st := tickTimer s.st }

/-- The input sampled for this step (R201): the one scheduled, else a free value; log 1. -/
def State.input (s : State) : StepInput :=
  match s.pending with
  | [] => Config.freeInput s.drawn
  | k :: _ => k

/-- `KEYS` of this step (R214). -/
def State.keys (s : State) : Keys := s.input.keys

/-- `RND` of this step (R215). -/
def State.rnd (s : State) : Byte := s.input.rnd

/-- The step's input is used up: "passed in per step, never stored" (R214); log 1. -/
def State.takeInput (s : State) : State :=
  match s.pending with
  | [] => { s with drawn := s.drawn + 1 }
  | _ :: rest => { s with pending := rest }

/-! ### Faults -/

/-- Raising a fault (R6, R220, R258): the step ends at once, nothing is written, the timers do not tick. There is no
handler, no saved register and no return (R250, R261): the fault is reported to the host. -/
def raise (f : Fault) : Result := .fault f

/-- `raise IndexOutOfRange(info)` by an instruction: the record holds its word and `PC` (R254, R257). -/
def State.raiseIndex (s : State) (i : Instr) (info : BitVec 17) : Result :=
  raise (.indexOutOfRange (encode i) s.pc info)

/-- An instruction that accesses `n` bytes at `addr`: all of its addresses are checked before it changes anything
(R43). -/
def State.guardAccess (s : State) (i : Instr) (addr n : Nat) (done : State) : Result :=
  match accessFault addr n with
  | some info => s.raiseIndex i info
  | none => .next done

/-- An instruction that uses `index` as a key index or a font digit: above 15 it faults (R254 (c), (d); the spec's
decision D7; log 6). -/
def State.guardIndex (s : State) (i : Instr) (index : Byte) (done : State) : Result :=
  if index.toNat > 15 then s.raiseIndex i (BitVec.ofNat 17 index.toNat) else .next done

/-! ### The phases of a step around the execution (R220) -/

/-- Phase 1: the two bytes at `PC`, big-endian (R44); above 0xFFE a fault whose word is 0x0000 (R254 (a)). -/
def State.fetch (s : State) : Except Fault Word :=
  match accessFault s.pc.toNat 2 with
  | some info => .error (.indexOutOfRange 0x0000 s.pc info)
  | none => .ok (wordOfBytes (s.readByte s.pc.toNat) (s.readByte (s.pc.toNat + 1)))

/-- Phase 3 on a word that is no instruction (R251). -/
def State.raiseIllegal (s : State) (w : Word) : Result := raise (.illegalOpcode w s.pc)

/-- Phase 5 after an execution that did not fault: the tick sees the values just written (R221, R266), and the
step's input is used up. -/
def finishStep : Result → Result
  | .next s => .next s.tick.takeInput
  | .fault f => .fault f
  | .refused r => .refused r

/-- A word stored at `PC` as memory holds it, high byte first (R44). -/
def State.storeWordAtPc (s : State) (w : Word) : State :=
  (s.writeByte s.pc.toNat (highByte w)).writeByte (s.pc.toNat + 1) (lowByte w)

end Sys2Proof.Machine
end

