-- ==== Sys2Proof/Machine/Flags.lean ====
section
/-! DEFINITION. The ALU (41_alu.md R120, 50_blocks_and_interfaces.md R203, R204) and the one flag, VF (R14). -/

namespace Sys2Proof.Machine

/-- The ALU's operations (R120). -/
inductive AluOp where
  | passB
  | or
  | and
  | xor
  | add
  | sub
  | shr
  | subn
  | shl
deriving DecidableEq, Repr

/-- `alu_op`: the `n` nibble of the class 8 instruction that uses the operation (R204). -/
def AluOp.code : AluOp → Nibble
  | .passB => 0x0
  | .or => 0x1
  | .and => 0x2
  | .xor => 0x3
  | .add => 0x4
  | .sub => 0x5
  | .shr => 0x6
  | .subn => 0x7
  | .shl => 0xE

/-- The operation of a code; none for the codes that are never presented (R204, U22). -/
def AluOp.ofCode (n : Nibble) : Option AluOp :=
  [AluOp.passB, .or, .and, .xor, .add, .sub, .shr, .subn, .shl].find? fun op => op.code = n

/-- The outputs of the ALU: `r`, and `f` where one is produced (`f_valid` is `f.isSome`) (R120, R203). -/
structure AluOut where
  r : Byte
  f : Option Bool
deriving DecidableEq, Repr

/-- Carry out of an 8-bit sum (R120). -/
def carryOut (a b : Byte) : Bool := a.toNat + b.toNat > 255

/-- Not borrow of `a - b` (R120). -/
def notBorrow (a b : Byte) : Bool := a.toNat ≥ b.toNat

/-- The ALU's function, complete (R120). -/
def alu : AluOp → Byte → Byte → AluOut
  | .passB, _, b => ⟨b, none⟩
  | .or, a, b => ⟨a ||| b, none⟩
  | .and, a, b => ⟨a &&& b, none⟩
  | .xor, a, b => ⟨a ^^^ b, none⟩
  | .add, a, b => ⟨BitVec.ofNat 8 (a.toNat + b.toNat), some (carryOut a b)⟩
  | .sub, a, b => ⟨a - b, some (notBorrow a b)⟩
  | .shr, a, _ => ⟨a >>> 1, some (a.getLsbD 0)⟩
  | .subn, a, b => ⟨b - a, some (notBorrow b a)⟩
  | .shl, a, _ => ⟨a <<< 1, some (a.getLsbD 7)⟩

/-- The result write `V[x] <- r`, without the flag (R205). -/
def State.writeResult (s : State) (x : Nibble) (out : AluOut) : State := s.setV x out.r

/-- The result write and then the flag write, which wins when both address `V[15]` (R15, R206; log 4). -/
def State.writeResultAndFlag (s : State) (x : Nibble) (out : AluOut) : State :=
  match out.f with
  | some f => (s.setV x out.r).setFlag f
  | none => s.setV x out.r

/-- A class 8 instruction: the ALU on `a` and `b`, its writes to `V[x]` and VF, `advance` (R120, R204). -/
def State.aluStep (s : State) (op : AluOp) (x : Nibble) (a b : Byte) : State :=
  (s.writeResultAndFlag x (alu op a b)).advance

end Sys2Proof.Machine
end

