-- ==== Sys2Proof/Machine/Operands.lean ====
section
/-! DEFINITION. The operand forms (30_encoding.md R65): every immediate is used as it stands or zero-extended; there is
no sign extension, scaling or reordering. Registers `V[x]`, `V[y]` are `State.getV`. -/

namespace Sys2Proof.Machine

/-- `zext_16(nnn)`: a 12-bit address field on its way to a 16-bit register (R65). -/
def addrOperand (nnn : Addr12) : Word := nnn.setWidth 16

/-- `zext_16(V[x])`: a register as an addend of a 16-bit sum (R65). -/
def State.wideV (s : State) (x : Nibble) : Word := (s.getV x).setWidth 16

/-- The operand of SHR. and SHL.: `V[x]` when `SHIFT_QUIRK` is true, `V[y]` when it is false (R22, R129, R131). -/
def State.shiftOperand (s : State) (x y : Nibble) : Byte := if s.cfg.shiftQuirk then s.getV x else s.getV y

/-- `FONT_BASE + 5 * d`: the glyph of a hexadecimal digit (R46, R152). -/
def glyphAddress (c : Config) (d : Byte) : Word := BitVec.ofNat 16 (c.fontBase.toNat + fontStride * d.toNat)

/-- The decimal digits of a byte: hundreds, tens, ones (R153). -/
def bcdDigits (v : Byte) : List Byte :=
  [BitVec.ofNat 8 (v.toNat / 100), BitVec.ofNat 8 (v.toNat / 10 % 10), BitVec.ofNat 8 (v.toNat % 10)]

/-- `V[0]` to `V[x]`, both included (R154). -/
def State.firstRegs (s : State) (x : Nibble) : List Byte := s.v.toList.take (x.toNat + 1)

/-- `V[0]` to `V[x]` replaced by the bytes from address `a` on, `V[r]` from `a + r`; the others kept (R155). -/
def State.loadRegs (s : State) (x : Nibble) (a : Nat) : State :=
  { s with v := Vector.ofFn fun r => if r.val ≤ x.toNat then s.readByte (a + r.val) else s.v[r] }

/-- The first key of the list that is down. -/
def lowestKeyFrom (keys : Keys) : List Nat → Option Nibble
  | [] => none
  | k :: ks => if keys.getLsbD k then some (BitVec.ofNat 4 k) else lowestKeyFrom keys ks

/-- The lowest key that is down, if any (R174; the spec's decision D14 when several are down; log 7). -/
def lowestKey (keys : Keys) : Option Nibble := lowestKeyFrom keys (List.range 16)

/-- Key `k` is down (R172, R173). -/
def State.keyDown (s : State) (k : Byte) : Bool := s.keys.getLsbD k.toNat

end Sys2Proof.Machine
end

