-- ==== Sys2Proof/Machine/Alu.lean ====
section
/-! DEFINITION. Register and ALU instructions (41_alu.md R121 to R132). Each presents to the ALU what R204 says and
ends with `advance`; none can fault. Operands are read before any write (R221). -/

namespace Sys2Proof.Machine

/-- 6xnn `MVI Vx, nn` (R121). -/
def execMvi (x : Nibble) (nn : Byte) (s : State) : Result := .next (s.aluStep .passB x (s.getV x) nn)

/-- 7xnn `ADI Vx, nn` (R122): the ALU's carry is ignored, VF is not touched (R204). -/
def execAdi (x : Nibble) (nn : Byte) (s : State) : Result :=
  .next (s.writeResult x (alu .add (s.getV x) nn)).advance

/-- 8xy0 `MOV Vx, Vy` (R123). -/
def execMov (x y : Nibble) (s : State) : Result := .next (s.aluStep .passB x (s.getV x) (s.getV y))

/-- 8xy1 `OR Vx, Vy` (R124); VF untouched (the spec's decision D21; log 9). -/
def execOr (x y : Nibble) (s : State) : Result := .next (s.aluStep .or x (s.getV x) (s.getV y))

/-- 8xy2 `AND Vx, Vy` (R125); VF untouched (D21; log 9). -/
def execAnd (x y : Nibble) (s : State) : Result := .next (s.aluStep .and x (s.getV x) (s.getV y))

/-- 8xy3 `XOR Vx, Vy` (R126); VF untouched (D21; log 9). -/
def execXor (x y : Nibble) (s : State) : Result := .next (s.aluStep .xor x (s.getV x) (s.getV y))

/-- 8xy4 `ADD. Vx, Vy` (R127). -/
def execAdd (x y : Nibble) (s : State) : Result := .next (s.aluStep .add x (s.getV x) (s.getV y))

/-- 8xy5 `SUB. Vx, Vy` (R128). -/
def execSub (x y : Nibble) (s : State) : Result := .next (s.aluStep .sub x (s.getV x) (s.getV y))

/-- 8xy6 `SHR. Vx, Vy` (R129). -/
def execShr (x y : Nibble) (s : State) : Result := .next (s.aluStep .shr x (s.shiftOperand x y) (s.getV y))

/-- 8xy7 `SUBN. Vx, Vy` (R130). -/
def execSubn (x y : Nibble) (s : State) : Result := .next (s.aluStep .subn x (s.getV x) (s.getV y))

/-- 8xyE `SHL. Vx, Vy` (R131). -/
def execShl (x y : Nibble) (s : State) : Result := .next (s.aluStep .shl x (s.shiftOperand x y) (s.getV y))

/-- Cxnn `RNDMSK Vx, nn` (R132): the random byte of this step, masked. -/
def execRndmsk (x : Nibble) (nn : Byte) (s : State) : Result := .next (s.aluStep .and x s.rnd nn)

end Sys2Proof.Machine
end

