-- ==== Sys2Proof/Machine/ControlFlow.lean ====
section
/-! DEFINITION. Control transfer (40_control_flow.md R100 to R108): RET, JUMP, CALL, the four skips, JUMP+V0. The four
instructions that assign `PC` add nothing to it (R108 (b); C3, the spec's decision D5; log 8). No target is checked
(R108 (e)). -/

namespace Sys2Proof.Machine

/-- 00EE `RET` (R100): pop into `PC`; with an empty stack `StackUnderflow` and no decrement (R253, C7). -/
def execRet (s : State) : Result :=
  match s.pop with
  | none => raise (.stackUnderflow (encode .ret) s.pc)
  | some (a, t) => .next { t with pc := a }

/-- 1nnn `JUMP nnn` (R101). -/
def execJump (nnn : Addr12) (s : State) : Result := .next { s with pc := addrOperand nnn }

/-- 2nnn `CALL nnn` (R102): push `PC + 2`, then `PC <- nnn`; with a full stack `StackOverflow` (R252). -/
def execCall (nnn : Addr12) (s : State) : Result :=
  match s.push (s.pc + 2) with
  | none => raise (.stackOverflow (encode (.call nnn)) s.pc)
  | some t => .next { t with pc := addrOperand nnn }

/-- 3xnn `SKIP.EQ Vx, nn` (R103). -/
def execSkipEqImm (x : Nibble) (nn : Byte) (s : State) : Result := .next (s.skipIf (s.getV x == nn))

/-- 4xnn `SKIP.NE Vx, nn` (R104). -/
def execSkipNeImm (x : Nibble) (nn : Byte) (s : State) : Result := .next (s.skipIf (s.getV x != nn))

/-- 5xy0 `SKIP.EQ Vx, Vy` (R105). -/
def execSkipEqReg (x y : Nibble) (s : State) : Result := .next (s.skipIf (s.getV x == s.getV y))

/-- 9xy0 `SKIP.NE Vx, Vy` (R106). -/
def execSkipNeReg (x y : Nibble) (s : State) : Result := .next (s.skipIf (s.getV x != s.getV y))

/-- Bnnn `JUMP+V0 nnn` (R107): the register is always `V[0]`; the sum is not reduced modulo 4096. -/
def execJumpV0 (nnn : Addr12) (s : State) : Result := .next { s with pc := addrOperand nnn + s.wideV 0 }

end Sys2Proof.Machine
end

