-- ==== Sys2Proof/Machine/DisplayKeypad.lean ====
section
/-! DEFINITION. Display and keypad instructions (43_display_keypad.md R170 to R176). -/

namespace Sys2Proof.Machine

/-- 00E0 `CLS` (R170). -/
def execCls (s : State) : Result := .next { s with fb := Display.clear }.advance

/-- The display and the collision bit of DRAW: the sprite's rows are the `n` bytes from `I` on, its top-left cell is
`(V[x] mod 64, V[y] mod 32)`, read before VF is written (R171, D10). -/
def drawResult (x y n : Nibble) (s : State) : Display × Bool :=
  drawSprite ((s.getV x).toNat % 64) ((s.getV y).toNat % 32) (s.readBytes s.i.toNat n.toNat) (s.fb, false)

/-- Dxyn `DRAW Vx, Vy, n` (R171): the range is `I` to `I + n - 1` (C5, D27; log 12); VF from a fresh 0, always
written. -/
def execDraw (x y n : Nibble) (s : State) : Result :=
  s.guardAccess (.draw x y n) s.i.toNat n.toNat
    ({ s with fb := (drawResult x y n s).1 }.setFlag (drawResult x y n s).2).advance

/-- Ex9E `SKIPKEY.Y Vx` (R172). -/
def execSkipKeyY (x : Nibble) (s : State) : Result :=
  s.guardIndex (.skipKeyY x) (s.getV x) (s.skipIf (s.keyDown (s.getV x)))

/-- ExA1 `SKIPKEY.N Vx` (R173). -/
def execSkipKeyN (x : Nibble) (s : State) : Result :=
  s.guardIndex (.skipKeyN x) (s.getV x) (s.skipIf (!s.keyDown (s.getV x)))

/-- Fx0A `KEY Vx` (R174): with no key down nothing is written and `PC` stays, a step like any other (C4); else the
lowest key that is down. -/
def execKey (x : Nibble) (s : State) : Result :=
  .next (match lowestKey s.keys with
    | none => s
    | some k => (s.setV x (k.setWidth 8)).advance)

end Sys2Proof.Machine
end

