-- ==== Sys2Proof/Machine/IndexMemory.lean ====
section
/-! DEFINITION. Index register and memory instructions (42_index_memory.md R150 to R156). None writes VF as a flag;
`I` is not changed by a load or a store (the spec's decision D21; log 9). -/

namespace Sys2Proof.Machine

/-- Annn `MVI I, nnn` (R150). -/
def execMviI (nnn : Addr12) (s : State) : Result := .next { s with i := addrOperand nnn }.advance

/-- Fx1E `ADI I, Vx` (R151): modulo 65536, no flag (the spec's decision D9; log 11). -/
def execAdiI (x : Nibble) (s : State) : Result := .next { s with i := s.i + s.wideV x }.advance

/-- Fx29 `SPRITECHAR Vx` (R152): reads no memory; faults on a value above 15. -/
def execSpriteChar (x : Nibble) (s : State) : Result :=
  s.guardIndex (.spriteChar x) (s.getV x) { s with i := glyphAddress s.cfg (s.getV x) }.advance

/-- Fx33 `MOVBCD Vx` (R153): hundreds at `I`, tens at `I + 1`, ones at `I + 2`. -/
def execMovBcd (x : Nibble) (s : State) : Result :=
  s.guardAccess (.movBcd x) s.i.toNat 3 (s.writeBytes s.i.toNat (bcdDigits (s.getV x))).advance

/-- Fx55 `MOVM [I], V0..Vx` (R154): `V[r]` at `I + r`, `x` included; no partial store. -/
def execMovmStore (x : Nibble) (s : State) : Result :=
  s.guardAccess (.movmStore x) s.i.toNat (x.toNat + 1) (s.writeBytes s.i.toNat (s.firstRegs x)).advance

/-- Fx65 `MOVM V0..Vx, [I]` (R155): `V[r]` from `I + r`, `x` included; no partial load. -/
def execMovmLoad (x : Nibble) (s : State) : Result :=
  s.guardAccess (.movmLoad x) s.i.toNat (x.toNat + 1) (s.loadRegs x s.i.toNat).advance

end Sys2Proof.Machine
end

