-- ==== Sys2Proof/Machine/Timer.lean ====
section
/-! DEFINITION. Timer instructions (44_timer.md R190 to R193). The tick that follows in the same step is
`finishStep`'s. -/

namespace Sys2Proof.Machine

/-- Fx07 `MOV Vx, DT` (R190): the value before this step's tick. -/
def execMovVxDt (x : Nibble) (s : State) : Result := .next (s.setV x s.dt).advance

/-- Fx15 `MOV DT, Vx` (R191). -/
def execMovDtVx (x : Nibble) (s : State) : Result := .next { s with dt := s.getV x }.advance

/-- Fx18 `MOV ST, Vx` (R192). -/
def execMovStVx (x : Nibble) (s : State) : Result := .next { s with st := s.getV x }.advance

end Sys2Proof.Machine
end

