-- ==== Sys2Proof/Machine/Dispatch.lean ====
section
/-! DEFINITION. Phase 4 of the step (R220): each instruction's meaning. The tick is not part of it. -/

namespace Sys2Proof.Machine

def exec (i : Instr) (s : State) : Host.Outcome State Fault Refusal :=
  match i with
  | .cls => Sys2Proof.Machine.execCls s
  | .ret => Sys2Proof.Machine.execRet s
  | .jump nnn => Sys2Proof.Machine.execJump nnn s
  | .call nnn => Sys2Proof.Machine.execCall nnn s
  | .skipEqImm x nn => Sys2Proof.Machine.execSkipEqImm x nn s
  | .skipNeImm x nn => Sys2Proof.Machine.execSkipNeImm x nn s
  | .skipEqReg x y => Sys2Proof.Machine.execSkipEqReg x y s
  | .mvi x nn => Sys2Proof.Machine.execMvi x nn s
  | .adi x nn => Sys2Proof.Machine.execAdi x nn s
  | .mov x y => Sys2Proof.Machine.execMov x y s
  | .or x y => Sys2Proof.Machine.execOr x y s
  | .and x y => Sys2Proof.Machine.execAnd x y s
  | .xor x y => Sys2Proof.Machine.execXor x y s
  | .add x y => Sys2Proof.Machine.execAdd x y s
  | .sub x y => Sys2Proof.Machine.execSub x y s
  | .shr x y => Sys2Proof.Machine.execShr x y s
  | .subn x y => Sys2Proof.Machine.execSubn x y s
  | .shl x y => Sys2Proof.Machine.execShl x y s
  | .skipNeReg x y => Sys2Proof.Machine.execSkipNeReg x y s
  | .mviI nnn => Sys2Proof.Machine.execMviI nnn s
  | .jumpV0 nnn => Sys2Proof.Machine.execJumpV0 nnn s
  | .rndmsk x nn => Sys2Proof.Machine.execRndmsk x nn s
  | .draw x y n => Sys2Proof.Machine.execDraw x y n s
  | .skipKeyY x => Sys2Proof.Machine.execSkipKeyY x s
  | .skipKeyN x => Sys2Proof.Machine.execSkipKeyN x s
  | .movVxDt x => Sys2Proof.Machine.execMovVxDt x s
  | .key x => Sys2Proof.Machine.execKey x s
  | .movDtVx x => Sys2Proof.Machine.execMovDtVx x s
  | .movStVx x => Sys2Proof.Machine.execMovStVx x s
  | .adiI x => Sys2Proof.Machine.execAdiI x s
  | .spriteChar x => Sys2Proof.Machine.execSpriteChar x s
  | .movBcd x => Sys2Proof.Machine.execMovBcd x s
  | .movmStore x => Sys2Proof.Machine.execMovmStore x s
  | .movmLoad x => Sys2Proof.Machine.execMovmLoad x s

end Sys2Proof.Machine
end

