-- ==== Sys2Proof/Machine/Step.lean ====
section
/-! DEFINITION. The step (50_blocks_and_interfaces.md R220): fetch, decode, dispatch, execute, tick. -/

namespace Sys2Proof.Machine

/-- One accepted step as one atomic transition (R220). From every state it goes on or faults: there is no halt state and
none is reached (R301), and the end of a run is the host's (`runWith`). -/
def step (s : State) : Host.Outcome State Fault Refusal :=
  match s.fetch with
  | .error f => raise f
  | .ok w =>
    match decode w with
    | .error _ => s.raiseIllegal w
    | .ok i => finishStep (exec i s)

/-- The state with a word placed where `step` fetches its next instruction: at `PC`, or, when `PC` is above 0xFFE and
nothing can be fetched there (R18), at 0x200 with `PC` moved there. It stands for the load of a program from outside
(R294; log 14). -/
def State.withFetchWord (s : State) (nbits w : Nat) : State :=
  if s.pc.toNat + 1 ≤ memTop then s.storeWordAtPc (BitVec.ofNat 16 (w % 2 ^ nbits))
  else { s with pc := 0x0200 }.storeWordAtPc (BitVec.ofNat 16 (w % 2 ^ nbits))

end Sys2Proof.Machine
end

