-- ==== Sys2Proof/WellFormed.lean ====
section
/-! DEFINITION. What a launch checks of the terms it is given. An instruction needs no check: every field of `Instr`
is exactly as wide as its encoding (R61, R65), every value of every field is legal (R69), and a register index out of
range "cannot be encoded" (R11). The terms that can be ill-formed are the configuration and the ROM. -/

namespace Sys2Proof

/-- Every instruction term is well formed: R11, R65 and R69 leave no field value out. -/
def Instr.wf : Instr → Bool := fun _ => true

/-- The font table lies in low memory: `FONT_BASE + 80 <= 0x200` (R3, R46). -/
def Config.fontFits (c : Config) : Bool := c.fontBase.toNat + 80 ≤ 0x200

/-- `FONT_DATA` is 80 bytes (R3, R47). -/
def Config.fontWhole (c : Config) : Bool := c.fontData.length = 80

/-- A legal configuration (R303). -/
def Config.wf (c : Config) : Bool := c.fontFits && c.fontWhole

/-- The length of a ROM image after padding an odd length with one byte: `L` of R294. -/
def paddedLength (rom : List Byte) : Nat := rom.length + rom.length % 2

/-- The ROM fits the loadable region: its padded length is at most 3584 (R255, R294). -/
def romFits (rom : List Byte) : Bool := paddedLength rom ≤ 3584

end Sys2Proof
end

