-- ==== Sys2Proof/Machine/Launch.lean ====
section
/-! DEFINITION. What the host can do to the machine (50_blocks_and_interfaces.md R224): reset, load, step, observe. -/

namespace Sys2Proof.Machine

/-- Reset applied to a running machine, with `shift_quirk` sampled anew (R200, R290, R293). The font parameters and
what the environment has scheduled are not the machine's to change. -/
def State.applyReset (s : State) (shiftQuirk : Bool) : State :=
  { State.resetWith { s.cfg with shiftQuirk := shiftQuirk } with pending := s.pending, drawn := s.drawn }

/-- The load port: each byte goes to the load pointer, which then rises; a byte that arrives when the pointer is
0x1000 is a load error (R213, R255). -/
def loadBytes (s : State) : Nat → List Byte → Option State
  | _, [] => some s
  | pointer, b :: rest =>
    if pointer > memTop then none else loadBytes (s.writeByte pointer b) (pointer + 1) rest

/-- The image with the padding byte of an odd length (R213, R294). -/
def paddedRom (rom : List Byte) : List Byte := if rom.length % 2 = 1 then rom ++ [0x00] else rom

/-- The ROM loaded at 0x200 before the first step (R213, R294). -/
def loadRom (s : State) (rom : List Byte) : Option State := loadBytes s 0x200 (paddedRom rom)

/-- A launch (R303): reset with the configuration, then the ROM. Refused when the configuration is not one R303 allows
or the ROM does not fit (R255); log 14. -/
def launch (c : Config) (rom : List Byte) : Result :=
  if c.wf then
    match loadRom (State.resetWith c) rom with
    | some s => .next s
    | none => .refused .romLoadError
  else .refused .configIllegal

/-- The fault outputs of a step (R216, R257). -/
structure FaultPorts where
  valid : Bool
  code : BitVec 3
  word : Word
  pc : Word
  info : BitVec 17
deriving DecidableEq, Repr

/-- The fault record with its code (R256; the spec's decision D8; log 13). -/
def Fault.ports : Fault → FaultPorts
  | .illegalOpcode w p => ⟨true, 1, w, p, 0⟩
  | .stackOverflow w p => ⟨true, 2, w, p, 0⟩
  | .stackUnderflow w p => ⟨true, 3, w, p, 0⟩
  | .indexOutOfRange w p info => ⟨true, 4, w, p, info⟩

/-- The fault outputs of any outcome: all zero when the step did not fault (R256, code 0). -/
def stepPorts : Result → FaultPorts
  | .fault f => f.ports
  | .next _ => ⟨false, 0, 0, 0, 0⟩
  | .refused _ => ⟨false, 0, 0, 0, 0⟩

/-- The state after an outcome of a step from `s`: unchanged unless the step succeeded (R222, R258). -/
def stateAfter (s : State) : Result → State
  | .next t => t
  | .fault _ => s
  | .refused _ => s

/-- The state with the inputs of its next step given (R201, R214, R215). -/
def State.withInput (s : State) (keys : Keys) (rnd : Byte) : State := { s with pending := ⟨keys, rnd⟩ :: s.pending }

/-- R222's function of (state, `KEYS`, `RND`) to (fault outputs, next state): total and deterministic. A fault leaves
the state as it was, and the next step is accepted as usual (R259). -/
def stepWith (keys : Keys) (rnd : Byte) (s : State) : FaultPorts × State :=
  (stepPorts (step (s.withInput keys rnd)), stateAfter s (step (s.withInput keys rnd)))

/-- A run (R301, R303): the steps the host requests, each on its inputs, with their fault outputs in order and the state
after the last. The machine has no halt state and a run no end of its own: every request is a step, after a fault too
(R259), and the run ends where the host stops requesting. -/
def runWith : List StepInput → State → List FaultPorts × State
  | [], s => ([], s)
  | k :: rest, s =>
    ((stepWith k.keys k.rnd s).1 :: (runWith rest (stepWith k.keys k.rnd s).2).1,
      (runWith rest (stepWith k.keys k.rnd s).2).2)

end Sys2Proof.Machine
end

