-- ==== Sys2Proof/Safety.lean ====
section
/-! DEFINITION. The terms claims are stated in: the invariant of a run, the complete list of the causes of a fault,
what a display cell of a sprite is, which parts of the state an instruction may write, and the stack as a sequence of pushes and
pops. -/

namespace Sys2Proof.Machine

/-- What every state of a run has: memory in canonical form with every listed address in range (R40), `PC` at most
0x10FE and every live return address at most 0x1000 (R18's list of the reachable values). -/
structure State.Inv (s : State) : Prop where
  memory : Memory.wf s.cfg s.mem
  pcBound : s.pc.toNat ≤ 0x10FE
  returns : ∀ k : Fin 16, k.val < s.sp.val → (s.stk[k]).toNat ≤ 0x1000

/-- A step that succeeds: the machine goes on. -/
def State.Safe (s : State) : Prop := ∃ t, step s = .next t

/-- The fault an instruction raises in a state, from the complete list of causes (R252 to R254): none means it
succeeds. -/
def instrFault (i : Instr) (s : State) : Option Fault :=
  match i with
  | .call nnn => if s.sp.val = 16 then some (.stackOverflow (encode (.call nnn)) s.pc) else none
  | .ret => if s.sp.val = 0 then some (.stackUnderflow 0x00EE s.pc) else none
  | .draw x y n =>
    if 1 ≤ n.toNat ∧ 0xFFF < s.i.toNat + n.toNat - 1 then
      some (.indexOutOfRange (encode (.draw x y n)) s.pc (BitVec.ofNat 17 (max s.i.toNat 0x1000)))
    else none
  | .movBcd x =>
    if 0xFFF < s.i.toNat + 2 then
      some (.indexOutOfRange (encode (.movBcd x)) s.pc (BitVec.ofNat 17 (max s.i.toNat 0x1000)))
    else none
  | .movmStore x =>
    if 0xFFF < s.i.toNat + x.toNat then
      some (.indexOutOfRange (encode (.movmStore x)) s.pc (BitVec.ofNat 17 (max s.i.toNat 0x1000)))
    else none
  | .movmLoad x =>
    if 0xFFF < s.i.toNat + x.toNat then
      some (.indexOutOfRange (encode (.movmLoad x)) s.pc (BitVec.ofNat 17 (max s.i.toNat 0x1000)))
    else none
  | .skipKeyY x =>
    if 15 < (s.getV x).toNat then
      some (.indexOutOfRange (encode (.skipKeyY x)) s.pc (BitVec.ofNat 17 (s.getV x).toNat))
    else none
  | .skipKeyN x =>
    if 15 < (s.getV x).toNat then
      some (.indexOutOfRange (encode (.skipKeyN x)) s.pc (BitVec.ofNat 17 (s.getV x).toNat))
    else none
  | .spriteChar x =>
    if 15 < (s.getV x).toNat then
      some (.indexOutOfRange (encode (.spriteChar x)) s.pc (BitVec.ofNat 17 (s.getV x).toNat))
    else none
  | .cls => none
  | .jump _ => none
  | .skipEqImm _ _ => none
  | .skipNeImm _ _ => none
  | .skipEqReg _ _ => none
  | .mvi _ _ => none
  | .adi _ _ => none
  | .mov _ _ => none
  | .or _ _ => none
  | .and _ _ => none
  | .xor _ _ => none
  | .add _ _ => none
  | .sub _ _ => none
  | .shr _ _ => none
  | .subn _ _ => none
  | .shl _ _ => none
  | .skipNeReg _ _ => none
  | .mviI _ => none
  | .jumpV0 _ => none
  | .rndmsk _ _ => none
  | .movVxDt _ => none
  | .key _ => none
  | .movDtVx _ => none
  | .movStVx _ => none
  | .adiI _ => none

/-- The sprite whose top-left cell is `(x0, y0)` and whose rows are `rows` has a set bit on the cell `(r, c)`: the
cell lies `dy` rows below and `dx` columns right of the start, both around the edges, and bit `7 - dx` of row `dy` is
set (R171). A closed form, written without the loop of the meaning. -/
def spriteCovers (x0 y0 : Nat) (rows : List Byte) (r : Fin 32) (c : Fin 64) : Bool :=
  let dy := (r.val + 32 - y0 % 32) % 32
  let dx := (c.val + 64 - x0 % 64) % 64
  if dx < 8 then (rows.getD dy 0).getLsbD (7 - dx) else false

/-! ### What changes and what does not -/

/-- The parts of the machine's state (R10). -/
inductive Part where
  /-- `V[0]` to `V[15]`. -/
  | regs
  /-- `I`. -/
  | index
  /-- `PC`. -/
  | pc
  /-- `SP` and `STK`. -/
  | stack
  /-- `DT`. -/
  | delayTimer
  /-- `ST`. -/
  | soundTimer
  /-- Every byte of `MEM`. -/
  | memory
  /-- Every cell of `FB`. -/
  | display
deriving DecidableEq, Repr

/-- A part reads the same in both states. -/
def State.agreesOn (s t : State) : Part → Prop
  | .regs => ∀ r, t.getV r = s.getV r
  | .index => t.i = s.i
  | .pc => t.pc = s.pc
  | .stack => t.sp = s.sp ∧ ∀ k : Fin 16, t.stk[k] = s.stk[k]
  | .delayTimer => t.dt = s.dt
  | .soundTimer => t.st = s.st
  | .memory => ∀ a, t.readByte a = s.readByte a
  | .display => ∀ r c, t.fb.cell r c = s.fb.cell r c

/-- `t` differs from `s` at most in the parts named: every other part reads the same, and the configuration and the
inputs of the coming steps are the same. -/
structure State.changesOnly (s t : State) (parts : List Part) : Prop where
  agrees : ∀ p, p ∉ parts → s.agreesOn t p
  cfg : t.cfg = s.cfg
  pending : t.pending = s.pending
  drawn : t.drawn = s.drawn

/-- The parts an instruction may write (R12, R14, R16, R19 to R21, R24, R26, R49). -/
def writtenParts : Instr → List Part
  | .cls => [.display, .pc]
  | .ret => [.stack, .pc]
  | .jump _ => [.pc]
  | .call _ => [.stack, .pc]
  | .skipEqImm _ _ => [.pc]
  | .skipNeImm _ _ => [.pc]
  | .skipEqReg _ _ => [.pc]
  | .mvi _ _ => [.regs, .pc]
  | .adi _ _ => [.regs, .pc]
  | .mov _ _ => [.regs, .pc]
  | .or _ _ => [.regs, .pc]
  | .and _ _ => [.regs, .pc]
  | .xor _ _ => [.regs, .pc]
  | .add _ _ => [.regs, .pc]
  | .sub _ _ => [.regs, .pc]
  | .shr _ _ => [.regs, .pc]
  | .subn _ _ => [.regs, .pc]
  | .shl _ _ => [.regs, .pc]
  | .skipNeReg _ _ => [.pc]
  | .mviI _ => [.index, .pc]
  | .jumpV0 _ => [.pc]
  | .rndmsk _ _ => [.regs, .pc]
  | .draw _ _ _ => [.regs, .display, .pc]
  | .skipKeyY _ => [.pc]
  | .skipKeyN _ => [.pc]
  | .movVxDt _ => [.regs, .pc]
  | .key _ => [.regs, .pc]
  | .movDtVx _ => [.delayTimer, .pc]
  | .movStVx _ => [.soundTimer, .pc]
  | .adiI _ => [.index, .pc]
  | .spriteChar _ => [.index, .pc]
  | .movBcd _ => [.memory, .pc]
  | .movmStore _ => [.memory, .pc]
  | .movmLoad _ => [.regs, .pc]

/-- The general registers an instruction may write (R12): its destination, and VF where it writes the flag (R14). -/
def writesReg (i : Instr) (r : Nibble) : Bool :=
  match i with
  | .mvi x _ => r == x
  | .adi x _ => r == x
  | .mov x _ => r == x
  | .or x _ => r == x
  | .and x _ => r == x
  | .xor x _ => r == x
  | .add x _ => r == x || r == 15
  | .sub x _ => r == x || r == 15
  | .shr x _ => r == x || r == 15
  | .subn x _ => r == x || r == 15
  | .shl x _ => r == x || r == 15
  | .rndmsk x _ => r == x
  | .draw _ _ _ => r == 15
  | .movVxDt x => r == x
  | .key x => r == x
  | .movmLoad x => decide (r.toNat ≤ x.toNat)
  | .cls => false
  | .ret => false
  | .jump _ => false
  | .call _ => false
  | .skipEqImm _ _ => false
  | .skipNeImm _ _ => false
  | .skipEqReg _ _ => false
  | .skipNeReg _ _ => false
  | .mviI _ => false
  | .jumpV0 _ => false
  | .skipKeyY _ => false
  | .skipKeyN _ => false
  | .movDtVx _ => false
  | .movStVx _ => false
  | .adiI _ => false
  | .spriteChar _ => false
  | .movBcd _ => false
  | .movmStore _ => false

/-! ### The stack as a sequence -/

/-- Push the addresses of a list, the first one first (R209). -/
def pushAll (s : State) : List Word → Option State
  | [] => some s
  | a :: rest =>
    match s.push a with
    | some t => pushAll t rest
    | none => none

/-- Pop `k` addresses, listed in the order they come (R209). -/
def popAll (s : State) : Nat → Option (List Word × State)
  | 0 => some ([], s)
  | k + 1 =>
    match s.pop with
    | some (a, t) =>
      match popAll t k with
      | some (rest, u) => some (a :: rest, u)
      | none => none
    | none => none

end Sys2Proof.Machine
end

