-- ==== Sys2Proof/Certificates/Slice0/Obligations.lean ====
section
/-! DEFINITION. The statements about the machine. Each docstring names the rule of the spec it formalises; where a
clause rests on a decision the spec marks as its own, or on a log entry, it says so. -/

open Sys2Proof
open Sys2Proof.Machine

/-! ### Decoding and encoding -/

/-- R63: the source's two worked examples of the decoder, in full. -/
def Obligations.DecoderWorkedExamples : Prop :=
  (decodeFields 0x1228).op = 0x1 ∧ (decodeFields 0x1228).x = 0x2 ∧ (decodeFields 0x1228).y = 0x2 ∧
  (decodeFields 0x1228).n = 0x8 ∧ (decodeFields 0x1228).nn = 0x28 ∧ (decodeFields 0x1228).nnn = 0x228 ∧
  (decodeFields 0xD342).op = 0xD ∧ (decodeFields 0xD342).x = 0x3 ∧ (decodeFields 0xD342).y = 0x4 ∧
  (decodeFields 0xD342).n = 0x2 ∧ (decodeFields 0xD342).nn = 0x42 ∧ (decodeFields 0xD342).nnn = 0x342

/-- A few words of R66's patterns, at least one of each family, and refused neighbours (95_test_vectors.md 2.2). -/
def Obligations.SampleWordsDecode : Prop :=
  decode 0x00E0 = .ok .cls ∧ decode 0x00EE = .ok .ret ∧ decode 0x2300 = .ok (.call 0x300) ∧
  decode 0x332A = .ok (.skipEqImm 0x3 0x2A) ∧ decode 0x8AB4 = .ok (.add 0xA 0xB) ∧
  decode 0xF21E = .ok (.adiI 0x2) ∧ decode 0xD342 = .ok (.draw 0x3 0x4 0x2) ∧ decode 0xF30A = .ok (.key 0x3) ∧
  decode 0xFA15 = .ok (.movDtVx 0xA) ∧ decode 0x0000 = .error (.illegalOpcode 0x0000) ∧
  decode 0x5121 = .error (.illegalOpcode 0x5121) ∧ decode 0x8128 = .error (.illegalOpcode 0x8128) ∧
  decode 0xF100 = .error (.illegalOpcode 0xF100)

/-- R61: every field by its bit positions, and the identities between the fields; `word` is the spec's own seventh
output (D4). -/
def Obligations.FieldsRebuildTheWord : Prop :=
  ∀ w : Word,
    (decodeFields w).op.toNat = w.toNat / 4096 ∧ (decodeFields w).x.toNat = w.toNat / 256 % 16 ∧
    (decodeFields w).y.toNat = w.toNat / 16 % 16 ∧ (decodeFields w).n.toNat = w.toNat % 16 ∧
    (decodeFields w).nn.toNat = (decodeFields w).y.toNat * 16 + (decodeFields w).n.toNat ∧
    (decodeFields w).nnn.toNat = (decodeFields w).x.toNat * 256 + (decodeFields w).nn.toNat ∧
    w.toNat = (decodeFields w).op.toNat * 4096 + (decodeFields w).nnn.toNat ∧
    (decodeFields w).word = w

/-- Decoding the encoding of any well-formed instruction gives it back, from a word and from bytes, which are always
two (R60, R66, R69). -/
def Obligations.DecodeEncodeAgree : Prop :=
  ∀ i : Instr, i.wf = true →
    decode (encode i) = .ok i ∧ ∀ rest : List Byte, decodeBytes (encodeBytes i ++ rest) = .ok (i, rest)

/-- Every legal word is the encoding of the instruction it decodes to: no bit of it is ignored (R69; the `y` field of
the shifts is kept as an operand). -/
def Obligations.EncodeDecodeAgree : Prop :=
  ∀ (w : Word) (i : Instr), decode w = .ok i → encode i = w

/-- R66: dispatch by the fields and the mask and match column say the same of every word and every row. -/
def Obligations.OpcodeTableAgrees : Prop :=
  opcodeRows.length = 34 ∧
  ∀ (w : Word) (k : Nat) (r : OpcodeRow), opcodeRows[k]? = some r →
    (r.covers w = true ↔ ∃ i, decode w = .ok i ∧ i.row = k)

/-- R68: the illegal words, class by class (a rule the spec derives itself from R66). -/
def Obligations.IllegalWordsByClass : Prop :=
  ∀ w : Word,
    (decode w = .error (.illegalOpcode w) ↔
      (w.toNat / 4096 = 0x0 ∧ w.toNat ≠ 0x00E0 ∧ w.toNat ≠ 0x00EE) ∨
      (w.toNat / 4096 = 0x5 ∧ w.toNat % 16 ≠ 0) ∨
      (w.toNat / 4096 = 0x8 ∧ w.toNat % 16 ∈ [0x8, 0x9, 0xA, 0xB, 0xC, 0xD, 0xF]) ∨
      (w.toNat / 4096 = 0x9 ∧ w.toNat % 16 ≠ 0) ∨
      (w.toNat / 4096 = 0xE ∧ w.toNat % 256 ∉ [0x9E, 0xA1]) ∨
      (w.toNat / 4096 = 0xF ∧ w.toNat % 256 ∉ [0x07, 0x0A, 0x15, 0x18, 0x1E, 0x29, 0x33, 0x55, 0x65]))

/-! ### Reset and launch -/

/-- R30: the reset values, for every configuration. The display (D16), `I` and `SP` (D30) and the font (D12) are the
spec's own decisions; the configuration `State.reset` takes is log 2. A reset of a running machine gives the same
(R290), with `SHIFT_QUIRK` the value sampled at that reset (R200, R293) and the font parameters kept. -/
def Obligations.ResetValues : Prop :=
  (∀ c : Config,
    (∀ x, (State.resetWith c).getV x = 0) ∧ (State.resetWith c).i = 0 ∧ (State.resetWith c).pc = 0x0200 ∧
    (State.resetWith c).sp = 0 ∧ (∀ k : Fin 16, (State.resetWith c).stk[k] = 0) ∧
    (State.resetWith c).dt = 0 ∧ (State.resetWith c).st = 0 ∧
    (∀ k, k < 80 → (State.resetWith c).readByte (c.fontBase.toNat + k) = c.fontData.getD k 0) ∧
    (∀ a, (a < c.fontBase.toNat ∨ c.fontBase.toNat + 80 ≤ a) → (State.resetWith c).readByte a = 0) ∧
    (∀ r k, (State.resetWith c).fb.cell r k = false) ∧ (State.resetWith c).cfg = c) ∧
  State.reset = State.resetWith Config.standard ∧ Config.standard.shiftQuirk = true ∧
  ∀ (s : State) (q : Bool) (p : Part),
    (State.resetWith { s.cfg with shiftQuirk := q }).agreesOn (s.applyReset q) p ∧
    (s.applyReset q).cfg = { s.cfg with shiftQuirk := q }

/-- The invariant holds at reset. -/
def Obligations.ResetMeetsTheInvariant : Prop := State.reset.Inv

/-- The invariant holds after every launch that is not refused. -/
def Obligations.LaunchMeetsTheInvariant : Prop :=
  ∀ (c : Config) (rom : List Byte) (t : State), launch c rom = .next t → t.Inv

/-- Every step keeps the invariant, from every state that has it: memory canonical and in range, `PC` and the live
return addresses within the bounds of R18 (R18, R29, R40). -/
def Obligations.StepKeepsTheInvariant : Prop :=
  ∀ s t : State, s.Inv → step s = .next t → t.Inv

/-- R294: where the ROM lands, the padding byte, the font, zero everywhere else, all other state as after reset; a ROM
whose padded length is above 3584 is refused and nothing runs. -/
def Obligations.LaunchPlacesTheRom : Prop :=
  ∀ (c : Config) (rom : List Byte), c.wf = true →
    (rom.length + rom.length % 2 ≤ 3584 →
      ∃ t, launch c rom = .next t ∧
        (∀ k (h : k < rom.length), t.readByte (0x200 + k) = rom[k]) ∧
        (rom.length % 2 = 1 → t.readByte (0x200 + rom.length) = 0x00) ∧
        (∀ k, k < 80 → t.readByte (c.fontBase.toNat + k) = c.fontData.getD k 0) ∧
        (∀ a, (a < c.fontBase.toNat ∨ c.fontBase.toNat + 80 ≤ a) → (a < 0x200 ∨ 0x200 + rom.length ≤ a) →
          t.readByte a = 0x00) ∧
        (State.resetWith c).changesOnly t [.memory]) ∧
    (3584 < rom.length + rom.length % 2 → launch c rom = .refused .romLoadError)

/-! ### The step -/

/-- R44: the opcode is the two bytes at `PC`, the byte at the lower address its high half. -/
def Obligations.FetchIsBigEndian : Prop :=
  ∀ s : State, s.pc.toNat ≤ 0xFFE →
    ∃ w, s.fetch = .ok w ∧ w.toNat = (s.readByte s.pc.toNat).toNat * 256 + (s.readByte (s.pc.toNat + 1)).toNat

/-- When the two bytes at `PC` decode to an instruction, the step is `exec` of it and then the tick of R266 (after the
instruction's writes: D29) and the end of the step's input (log 1); a fault of `exec` is the step's fault, without a
tick. -/
def Obligations.StepRunsTheDecodedInstruction : Prop :=
  ∀ (s : State) (i : Instr), s.pc.toNat ≤ 0xFFE →
    decodeBytes [s.readByte s.pc.toNat, s.readByte (s.pc.toNat + 1)] = .ok (i, []) →
    (∀ t, exec i s = .next t → ∃ u, step s = .next u ∧
      (∀ p, p ≠ .delayTimer → p ≠ .soundTimer → t.agreesOn u p) ∧ u.cfg = t.cfg ∧
      u.dt.toNat = t.dt.toNat - 1 ∧ u.st.toNat = t.st.toNat - 1 ∧
      u.pending = t.pending.tail ∧ u.drawn = if t.pending = [] then t.drawn + 1 else t.drawn) ∧
    (∀ f, exec i s = .fault f → step s = .fault f)

/-- R18, R254 (a) (the spec's decision D6): a `PC` above 0xFFE cannot be fetched; the record's word is 0x0000 and its
`info` the lowest address out of range. -/
def Obligations.FetchAboveTheTopFaults : Prop :=
  ∀ s : State, 0xFFE < s.pc.toNat →
    step s = .fault (.indexOutOfRange 0x0000 s.pc (BitVec.ofNat 17 (max s.pc.toNat 0x1000))) ∧
    stateAfter s (step s) = s

/-- R251: a fetched word that is no instruction faults with the raw word and its `PC`, the state unmodified. -/
def Obligations.IllegalWordFaults : Prop :=
  ∀ (s : State) (w : Word), s.fetch = .ok w → (∀ i, decode w ≠ .ok i) →
    step s = .fault (.illegalOpcode w s.pc) ∧ stateAfter s (step s) = s

/-- R252 to R254: an instruction faults exactly in the cases of the complete list and with the record it gives, and
in every other case it completes; none is refused (D6, D7, D8 are the spec's decisions). R301: so there is no halt
state, a step from any state goes on or faults, and it goes on exactly when it fetches an instruction that has no cause
to fault. -/
def Obligations.InstructionsFaultExactlyAsListed : Prop :=
  ∀ (i : Instr) (s : State),
    (instrFault i s = none → ∃ t, exec i s = .next t) ∧
    (∀ f, instrFault i s = some f → exec i s = .fault f) ∧
    ((∃ t, step s = .next t) ∨ ∃ f, step s = .fault f) ∧
    ((∃ t, step s = .next t) ↔ ∃ w j, s.fetch = .ok w ∧ decode w = .ok j ∧ instrFault j s = none)

/-- R258, R261 (the spec's decisions D8, D22): a step that faults leaves the state as it was, and every further step
faults in the same way, whatever the inputs: a run of any requests from there answers each with the same record and
ends where it began. The machine does not stop by itself (R259, R301). -/
def Obligations.FaultsRepeatForever : Prop :=
  ∀ (keys keys' : Keys) (rnd rnd' : Byte) (s : State), (stepWith keys rnd s).1.valid = true →
    (stepWith keys rnd s).2 = s ∧
    stepWith keys' rnd' (stepWith keys rnd s).2 = stepWith keys rnd s ∧
    ∀ reqs : List StepInput, runWith reqs s = (List.replicate reqs.length (stepWith keys rnd s).1, s)

/-- R216, R254, R256, R257 (codes and record are the spec's decision D8; range and index faults D6, D7; log 13): the
fault outputs of every step, cause by cause. 1 for an illegal word, 2 for CALL at `SP = 16`, 3 for RET at `SP = 0`, 4
for the fetch, range and index faults with the offending address or index as `info`; `pc` is the `PC` of the step,
`word` the word fetched, 0x0000 when none was; all are zero when the step succeeds. -/
def Obligations.FaultRecordOfAStep : Prop :=
  ∀ (keys : Keys) (rnd : Byte) (s : State),
    (0xFFE < s.pc.toNat →
      (stepWith keys rnd s).1 = ⟨true, 4, 0x0000, s.pc, BitVec.ofNat 17 (max s.pc.toNat 0x1000)⟩) ∧
    ∀ w, s.fetch = .ok w →
      ((∀ i, decode w ≠ .ok i) → (stepWith keys rnd s).1 = ⟨true, 1, w, s.pc, 0⟩) ∧
      ∀ i, decode w = .ok i →
        (stepWith keys rnd s).1 =
          match i with
          | .call _ => if s.sp.val = 16 then ⟨true, 2, w, s.pc, 0⟩ else ⟨false, 0, 0, 0, 0⟩
          | .ret => if s.sp.val = 0 then ⟨true, 3, 0x00EE, s.pc, 0⟩ else ⟨false, 0, 0, 0, 0⟩
          | .draw _ _ n =>
            if 1 ≤ n.toNat ∧ 0xFFF < s.i.toNat + n.toNat - 1 then
              ⟨true, 4, w, s.pc, BitVec.ofNat 17 (max s.i.toNat 0x1000)⟩
            else ⟨false, 0, 0, 0, 0⟩
          | .movBcd _ =>
            if 0xFFF < s.i.toNat + 2 then ⟨true, 4, w, s.pc, BitVec.ofNat 17 (max s.i.toNat 0x1000)⟩
            else ⟨false, 0, 0, 0, 0⟩
          | .movmStore x =>
            if 0xFFF < s.i.toNat + x.toNat then ⟨true, 4, w, s.pc, BitVec.ofNat 17 (max s.i.toNat 0x1000)⟩
            else ⟨false, 0, 0, 0, 0⟩
          | .movmLoad x =>
            if 0xFFF < s.i.toNat + x.toNat then ⟨true, 4, w, s.pc, BitVec.ofNat 17 (max s.i.toNat 0x1000)⟩
            else ⟨false, 0, 0, 0, 0⟩
          | .skipKeyY x =>
            if 15 < (s.getV x).toNat then ⟨true, 4, w, s.pc, BitVec.ofNat 17 (s.getV x).toNat⟩
            else ⟨false, 0, 0, 0, 0⟩
          | .skipKeyN x =>
            if 15 < (s.getV x).toNat then ⟨true, 4, w, s.pc, BitVec.ofNat 17 (s.getV x).toNat⟩
            else ⟨false, 0, 0, 0, 0⟩
          | .spriteChar x =>
            if 15 < (s.getV x).toNat then ⟨true, 4, w, s.pc, BitVec.ofNat 17 (s.getV x).toNat⟩
            else ⟨false, 0, 0, 0, 0⟩
          | _ => ⟨false, 0, 0, 0, 0⟩

/-! ### Rules of the whole machine -/

/-- R21, R266 (the order of write and tick is the spec's decision D29): over one step each timer falls by one, not
below 0, from the value the step's instruction left in it, and Fx15 and Fx18 are the only instructions that leave
another. -/
def Obligations.TimersTickOnceAStep : Prop :=
  ∀ s t : State, step s = .next t →
    ∃ w i, s.fetch = .ok w ∧ decode w = .ok i ∧
      (t.dt.toNat = match i with
        | .movDtVx x => (s.getV x).toNat - 1
        | _ => s.dt.toNat - 1) ∧
      (t.st.toNat = match i with
        | .movStVx x => (s.getV x).toNat - 1
        | _ => s.st.toNat - 1)

/-- R21, R193 (b): `ST` is read by no instruction. Two runs of any instruction that differ in `ST` only have the same
outcome and differ in `ST` only. -/
def Obligations.SoundTimerIsNeverRead : Prop :=
  ∀ (i : Instr) (s : State) (b : Byte),
    (∀ f, exec i s = .fault f → exec i { s with st := b } = .fault f) ∧
    (∀ t, exec i s = .next t →
      exec i { s with st := b } = .next { t with st := match i with
        | .movStVx x => s.getV x
        | _ => b })

/-- R12, R16, R19 to R21, R24, R26, R49: the frame of every instruction by parts of the state. What `writtenParts`
does not name reads the same afterwards, every byte of memory and every cell of the display included. -/
def Obligations.InstructionsWriteOnlyTheirParts : Prop :=
  ∀ (i : Instr) (s t : State), exec i s = .next t → s.changesOnly t (writtenParts i)

/-- R12, R14: the frame of every instruction among the general registers: its destination, and VF where it writes the
flag, and no other (the silence of the table on other writes is the spec's decision D21). -/
def Obligations.InstructionsWriteOnlyTheirRegisters : Prop :=
  ∀ (i : Instr) (s t : State) (r : Nibble), exec i s = .next t → writesReg i r = false → t.getV r = s.getV r

/-- R16, R108: `PC` after every instruction (no addition after an assignment is the spec's decision D5). -/
def Obligations.PcAfterEveryInstruction : Prop :=
  ∀ (i : Instr) (s t : State), exec i s = .next t →
    match i with
    | .jump nnn => t.pc.toNat = nnn.toNat
    | .call nnn => t.pc.toNat = nnn.toNat
    | .jumpV0 nnn => t.pc.toNat = nnn.toNat + (s.getV 0).toNat
    | .ret => ∃ k : Fin 16, s.sp.val = k.val + 1 ∧ t.pc = s.stk[k]
    | .skipEqImm _ _ => t.pc = s.pc + 2 ∨ t.pc = s.pc + 4
    | .skipNeImm _ _ => t.pc = s.pc + 2 ∨ t.pc = s.pc + 4
    | .skipEqReg _ _ => t.pc = s.pc + 2 ∨ t.pc = s.pc + 4
    | .skipNeReg _ _ => t.pc = s.pc + 2 ∨ t.pc = s.pc + 4
    | .skipKeyY _ => t.pc = s.pc + 2 ∨ t.pc = s.pc + 4
    | .skipKeyN _ => t.pc = s.pc + 2 ∨ t.pc = s.pc + 4
    | .key _ => t.pc = s.pc ∨ t.pc = s.pc + 2
    | _ => t.pc = s.pc + 2

/-- R22 (the sampling point is the spec's decision D23): no step changes the configuration. -/
def Obligations.ConfigurationNeverChanges : Prop :=
  ∀ s t : State, step s = .next t → t.cfg = s.cfg

/-! ### Control transfer -/

/-- R101: the words `1nnn`; `PC` is exactly `nnn`; nothing else changes. -/
def Obligations.JumpGoesToItsAddress : Prop :=
  ∀ (nnn : Addr12) (s : State), decode (BitVec.ofNat 16 (0x1000 + nnn.toNat)) = .ok (.jump nnn) ∧ ∃ t, exec (.jump nnn) s = .next t ∧
    t.pc.toNat = nnn.toNat ∧ s.changesOnly t [.pc]

/-- R107: the exact sum of `nnn` and `V[0]`, not reduced modulo 4096, and no 2 added (the spec's decision D5). -/
def Obligations.JumpPlusV0AddsV0 : Prop :=
  ∀ (nnn : Addr12) (s : State), ∃ t, exec (.jumpV0 nnn) s = .next t ∧
    t.pc.toNat = nnn.toNat + (s.getV 0).toNat ∧ s.changesOnly t [.pc]

/-- R102 with room on the stack: `PC + 2` goes to the slot `SP`, `SP` rises, `PC` is `nnn` (no 2 added: D5). -/
def Obligations.CallPushesAndJumps : Prop :=
  ∀ (nnn : Addr12) (s : State) (h : s.sp.val < 16), ∃ t, exec (.call nnn) s = .next t ∧
    t.pc.toNat = nnn.toNat ∧ t.sp.val = s.sp.val + 1 ∧ t.stk[s.sp.val] = s.pc + 2 ∧
    (∀ k : Fin 16, k.val ≠ s.sp.val → t.stk[k] = s.stk[k]) ∧ s.changesOnly t [.stack, .pc]

/-- R252: CALL with a full stack raises `StackOverflow` with its word and `PC`; nothing is pushed, and no other
instruction raises it. That the whole state stays as it was is the spec's decision D8 (R258; log 13). -/
def Obligations.CallOnAFullStackFaults : Prop :=
  (∀ (nnn : Addr12) (s : State), s.sp.val = 16 →
    exec (.call nnn) s = .fault (.stackOverflow (BitVec.ofNat 16 (0x2000 + nnn.toNat)) s.pc) ∧
    stateAfter s (exec (.call nnn) s) = s) ∧
  ∀ (i : Instr) (s : State) (w p : Word), exec i s = .fault (.stackOverflow w p) →
    ∃ nnn, i = .call nnn ∧ s.sp.val = 16

/-- R100 with an address on the stack: `PC` is the popped value (no 2 added: D5), `SP` falls, every slot keeps its
value (D11). -/
def Obligations.RetPopsIntoPc : Prop :=
  ∀ (s : State) (k : Fin 16), s.sp.val = k.val + 1 → ∃ t, exec .ret s = .next t ∧
    t.pc = s.stk[k] ∧ t.sp.val = k.val ∧ (∀ j : Fin 16, t.stk[j] = s.stk[j]) ∧ s.changesOnly t [.stack, .pc]

/-- R253: RET with an empty stack raises `StackUnderflow` with the word 0x00EE and its `PC`; `SP` and `PC` stay; no
other instruction raises it. That the whole state stays as it was is the spec's decision D8 (R258; log 13). -/
def Obligations.RetOnAnEmptyStackFaults : Prop :=
  (∀ s : State, s.sp.val = 0 →
    exec .ret s = .fault (.stackUnderflow 0x00EE s.pc) ∧ stateAfter s (exec .ret s) = s) ∧
  ∀ (i : Instr) (s : State) (w p : Word), exec i s = .fault (.stackUnderflow w p) → i = .ret ∧ s.sp.val = 0

/-- CALL and RET are inverse (95_test_vectors.md S4, for every state with room): `PC` comes back two above the CALL,
`SP` and every live slot as before. -/
def Obligations.CallThenRetReturns : Prop :=
  ∀ (nnn : Addr12) (s : State), s.sp.val < 16 →
    ∃ t u, exec (.call nnn) s = .next t ∧ exec .ret t = .next u ∧
      u.pc = s.pc + 2 ∧ u.sp = s.sp ∧ (∀ k : Fin 16, k.val < s.sp.val → u.stk[k] = s.stk[k]) ∧
      s.changesOnly u [.stack, .pc]

/-- R209: the stack is last in, first out, to its full depth, from any fill. -/
def Obligations.StackIsLastInFirstOut : Prop :=
  ∀ (s : State) (as : List Word), s.sp.val + as.length ≤ 16 →
    ∃ t u, pushAll s as = some t ∧ popAll t as.length = some (as.reverse, u) ∧
      u.sp = s.sp ∧ (∀ k : Fin 16, k.val < s.sp.val → u.stk[k] = s.stk[k]) ∧ s.changesOnly u [.stack]

/-- R103, R104: the skips on an immediate, words `3xnn` and `4xnn`; four when the condition holds, two otherwise,
nothing else written. -/
def Obligations.ImmediateSkips : Prop :=
  ∀ (x : Nibble) (nn : Byte) (s : State),
    decode (BitVec.ofNat 16 (0x3000 + x.toNat * 256 + nn.toNat)) = .ok (.skipEqImm x nn) ∧
    decode (BitVec.ofNat 16 (0x4000 + x.toNat * 256 + nn.toNat)) = .ok (.skipNeImm x nn) ∧
    (∃ t, exec (.skipEqImm x nn) s = .next t ∧ t.pc = (if s.getV x = nn then s.pc + 4 else s.pc + 2) ∧
      s.changesOnly t [.pc]) ∧
    (∃ t, exec (.skipNeImm x nn) s = .next t ∧ t.pc = (if s.getV x ≠ nn then s.pc + 4 else s.pc + 2) ∧
      s.changesOnly t [.pc])

/-- R105, R106: the skips on two registers, words `5xy0` and `9xy0`, the other `n` of both classes illegal. -/
def Obligations.RegisterSkips : Prop :=
  ∀ (x y : Nibble) (s : State),
    decode (BitVec.ofNat 16 (0x5000 + x.toNat * 256 + y.toNat * 16)) = .ok (.skipEqReg x y) ∧
    decode (BitVec.ofNat 16 (0x9000 + x.toNat * 256 + y.toNat * 16)) = .ok (.skipNeReg x y) ∧
    (∀ (n : Nibble) (i : Instr), n ≠ 0 →
      decode (BitVec.ofNat 16 (0x5000 + x.toNat * 256 + y.toNat * 16 + n.toNat)) ≠ .ok i ∧
      decode (BitVec.ofNat 16 (0x9000 + x.toNat * 256 + y.toNat * 16 + n.toNat)) ≠ .ok i) ∧
    (∃ t, exec (.skipEqReg x y) s = .next t ∧ t.pc = (if s.getV x = s.getV y then s.pc + 4 else s.pc + 2) ∧
      s.changesOnly t [.pc]) ∧
    (∃ t, exec (.skipNeReg x y) s = .next t ∧ t.pc = (if s.getV x ≠ s.getV y then s.pc + 4 else s.pc + 2) ∧
      s.changesOnly t [.pc])

/-! ### Registers and the ALU -/

/-- R121: the words `6xnn`; VF is an ordinary destination. -/
def Obligations.MviLoadsTheImmediate : Prop :=
  ∀ (x : Nibble) (nn : Byte) (s : State),
    decode (BitVec.ofNat 16 (0x6000 + x.toNat * 256 + nn.toNat)) = .ok (.mvi x nn) ∧ ∃ t, exec (.mvi x nn) s = .next t ∧
    t.getV x = nn ∧ (∀ r, r ≠ x → t.getV r = s.getV r) ∧ t.pc = s.pc + 2 ∧ s.changesOnly t [.regs, .pc]

/-- R122: the words `7xnn`; the sum modulo 256; VF is not touched unless it is the destination, which then gets the sum. -/
def Obligations.AdiWrapsWithoutAFlag : Prop :=
  ∀ (x : Nibble) (nn : Byte) (s : State),
    decode (BitVec.ofNat 16 (0x7000 + x.toNat * 256 + nn.toNat)) = .ok (.adi x nn) ∧ ∃ t, exec (.adi x nn) s = .next t ∧
    (t.getV x).toNat = ((s.getV x).toNat + nn.toNat) % 256 ∧ (∀ r, r ≠ x → t.getV r = s.getV r) ∧
    t.pc = s.pc + 2 ∧ s.changesOnly t [.regs, .pc]

/-- R123: the words `8xy0`; VF is an ordinary register here, kept unless it is the destination (the spec's decision
D21: silence means no effect; log 9). -/
def Obligations.MovCopiesTheRegister : Prop :=
  ∀ (x y : Nibble) (s : State),
    decode (BitVec.ofNat 16 (0x8000 + x.toNat * 256 + y.toNat * 16)) = .ok (.mov x y) ∧ ∃ t, exec (.mov x y) s = .next t ∧
    t.getV x = s.getV y ∧ (∀ r, r ≠ x → t.getV r = s.getV r) ∧ t.pc = s.pc + 2 ∧ s.changesOnly t [.regs, .pc]

/-- R124 to R126: the three bitwise operations; VF untouched (the spec's decision D21). -/
def Obligations.BitwiseOperations : Prop :=
  ∀ (x y : Nibble) (s : State),
    (∃ t, exec (.or x y) s = .next t ∧ t.getV x = s.getV x ||| s.getV y ∧ (∀ r, r ≠ x → t.getV r = s.getV r) ∧
      t.pc = s.pc + 2 ∧ s.changesOnly t [.regs, .pc]) ∧
    (∃ t, exec (.and x y) s = .next t ∧ t.getV x = s.getV x &&& s.getV y ∧ (∀ r, r ≠ x → t.getV r = s.getV r) ∧
      t.pc = s.pc + 2 ∧ s.changesOnly t [.regs, .pc]) ∧
    (∃ t, exec (.xor x y) s = .next t ∧ t.getV x = s.getV x ^^^ s.getV y ∧ (∀ r, r ≠ x → t.getV r = s.getV r) ∧
      t.pc = s.pc + 2 ∧ s.changesOnly t [.regs, .pc])

/-- ADD. (R127): the sum modulo 256 and the carry out; with `x = 15` the carry wins (the spec's decision D10). -/
def Obligations.AddSetsTheCarry : Prop :=
  ∀ (x y : Nibble) (s : State), ∃ t, exec (.add x y) s = .next t ∧
    t.getV 15 = (if (s.getV x).toNat + (s.getV y).toNat > 255 then 1 else 0) ∧
    (x ≠ 15 → (t.getV x).toNat = ((s.getV x).toNat + (s.getV y).toNat) % 256) ∧
    (∀ r, r ≠ x → r ≠ 15 → t.getV r = s.getV r) ∧ t.pc = s.pc + 2 ∧ s.changesOnly t [.regs, .pc]

/-- SUB. (R128): the difference modulo 256 and the not-borrow, 1 on equality; with `x = 15` the flag wins (D10). -/
def Obligations.SubSetsTheNotBorrow : Prop :=
  ∀ (x y : Nibble) (s : State), ∃ t, exec (.sub x y) s = .next t ∧
    t.getV 15 = (if (s.getV x).toNat ≥ (s.getV y).toNat then 1 else 0) ∧
    (x ≠ 15 → (t.getV x).toNat = ((s.getV x).toNat + 256 - (s.getV y).toNat) % 256) ∧
    (∀ r, r ≠ x → r ≠ 15 → t.getV r = s.getV r) ∧ t.pc = s.pc + 2 ∧ s.changesOnly t [.regs, .pc]

/-- SUBN. (R130): the reverse difference and its not-borrow; with `x = 15` the flag wins (D10). -/
def Obligations.SubnSetsTheNotBorrow : Prop :=
  ∀ (x y : Nibble) (s : State), ∃ t, exec (.subn x y) s = .next t ∧
    t.getV 15 = (if (s.getV y).toNat ≥ (s.getV x).toNat then 1 else 0) ∧
    (x ≠ 15 → (t.getV x).toNat = ((s.getV y).toNat + 256 - (s.getV x).toNat) % 256) ∧
    (∀ r, r ≠ x → r ≠ 15 → t.getV r = s.getV r) ∧ t.pc = s.pc + 2 ∧ s.changesOnly t [.regs, .pc]

/-- SHR. (R129) for both values of `SHIFT_QUIRK`: half of the operand, VF its bit 0; with `x = 15` the flag wins
(D10). -/
def Obligations.ShrHalvesItsOperand : Prop :=
  ∀ (x y : Nibble) (s : State) (v : Byte), v = (if s.cfg.shiftQuirk = true then s.getV x else s.getV y) →
    ∃ t, exec (.shr x y) s = .next t ∧
      (t.getV 15).toNat = v.toNat % 2 ∧ (x ≠ 15 → (t.getV x).toNat = v.toNat / 2) ∧
      (∀ r, r ≠ x → r ≠ 15 → t.getV r = s.getV r) ∧ t.pc = s.pc + 2 ∧ s.changesOnly t [.regs, .pc]

/-- SHL. (R131) for both values of `SHIFT_QUIRK`: twice the operand modulo 256, VF its bit 7; with `x = 15` the flag
wins (D10). -/
def Obligations.ShlDoublesItsOperand : Prop :=
  ∀ (x y : Nibble) (s : State) (v : Byte), v = (if s.cfg.shiftQuirk = true then s.getV x else s.getV y) →
    ∃ t, exec (.shl x y) s = .next t ∧
      (t.getV 15).toNat = v.toNat / 128 ∧ (x ≠ 15 → (t.getV x).toNat = v.toNat * 2 % 256) ∧
      (∀ r, r ≠ x → r ≠ 15 → t.getV r = s.getV r) ∧ t.pc = s.pc + 2 ∧ s.changesOnly t [.regs, .pc]

/-- R204: a class 8 word presents its `n` nibble to the ALU as the operation, on `V[x]` (the shift operand for the
shifts) and `V[y]`; the codes of the operations are the nine legal nibbles; a flag is produced exactly for `0x4` to
`0x7` and `0xE`. -/
def Obligations.AluCodeIsTheFunctionNibble : Prop :=
  (∀ (op : AluOp) (x y : Nibble) (s : State) (i : Instr),
    decode (BitVec.ofNat 16 (0x8000 + x.toNat * 256 + y.toNat * 16 + op.code.toNat)) = .ok i →
    exec i s = .next (s.aluStep op x
      (if op = .shr ∨ op = .shl then s.shiftOperand x y else s.getV x) (s.getV y))) ∧
  (∀ (n : Nibble) (op : AluOp), AluOp.ofCode n = some op ↔ op.code = n) ∧
  ∀ (op : AluOp) (a b : Byte),
    (alu op a b).f.isSome = true ↔ op.code ∈ [(0x4 : Nibble), 0x5, 0x6, 0x7, 0xE]

/-- RNDMSK (R132): the random byte supplied to the step, whatever it is (D15; log 1), under the mask. -/
def Obligations.RndmskMasksTheSuppliedByte : Prop :=
  ∀ (x : Nibble) (nn : Byte) (s : State), ∃ t, exec (.rndmsk x nn) s = .next t ∧
    t.getV x = s.rnd &&& nn ∧ (∀ r, r ≠ x → t.getV r = s.getV r) ∧ t.pc = s.pc + 2 ∧
    s.changesOnly t [.regs, .pc] ∧
    ∀ (keys : Keys) (rnd : Byte), (s.withInput keys rnd).rnd = rnd

/-! ### Index register and memory -/

/-- R150: the words `Annn`; bits 15 to 12 of `I` become 0. -/
def Obligations.MviILoadsTheAddress : Prop :=
  ∀ (nnn : Addr12) (s : State), decode (BitVec.ofNat 16 (0xA000 + nnn.toNat)) = .ok (.mviI nnn) ∧ ∃ t, exec (.mviI nnn) s = .next t ∧
    t.i.toNat = nnn.toNat ∧ t.pc = s.pc + 2 ∧ s.changesOnly t [.index, .pc]

/-- ADI I (R151): the sum modulo 65536 (the spec's decision D9), no flag. -/
def Obligations.AdiIAddsTheRegister : Prop :=
  ∀ (x : Nibble) (s : State), ∃ t, exec (.adiI x) s = .next t ∧
    t.i.toNat = (s.i.toNat + (s.getV x).toNat) % 65536 ∧ t.pc = s.pc + 2 ∧ s.changesOnly t [.index, .pc]

/-- SPRITECHAR (R152), for every `FONT_BASE` (D12): the glyph's address; above 15 `IndexOutOfRange` (D7). -/
def Obligations.SpriteCharPointsAtTheGlyph : Prop :=
  ∀ (x : Nibble) (s : State),
    ((s.getV x).toNat ≤ 15 → ∃ t, exec (.spriteChar x) s = .next t ∧
      t.i.toNat = s.cfg.fontBase.toNat + 5 * (s.getV x).toNat ∧ t.pc = s.pc + 2 ∧
      s.changesOnly t [.index, .pc]) ∧
    (15 < (s.getV x).toNat → exec (.spriteChar x) s =
      .fault (.indexOutOfRange (BitVec.ofNat 16 (0xF029 + x.toNat * 256)) s.pc
        (BitVec.ofNat 17 (s.getV x).toNat)))

/-- R153: the three digits at `I`, `I + 1`, `I + 2`, every other byte kept; nothing is written when `I + 2` is above
0xFFF. -/
def Obligations.MovBcdStoresTheDigits : Prop :=
  ∀ (x : Nibble) (s : State),
    (s.i.toNat + 2 ≤ 0xFFF → ∃ t, exec (.movBcd x) s = .next t ∧
      (t.readByte s.i.toNat).toNat = (s.getV x).toNat / 100 ∧
      (t.readByte (s.i.toNat + 1)).toNat = (s.getV x).toNat / 10 % 10 ∧
      (t.readByte (s.i.toNat + 2)).toNat = (s.getV x).toNat % 10 ∧
      (∀ a, (a < s.i.toNat ∨ s.i.toNat + 3 ≤ a) → t.readByte a = s.readByte a) ∧
      t.pc = s.pc + 2 ∧ s.changesOnly t [.memory, .pc]) ∧
    (0xFFF < s.i.toNat + 2 → exec (.movBcd x) s =
      .fault (.indexOutOfRange (BitVec.ofNat 16 (0xF033 + x.toNat * 256)) s.pc
        (BitVec.ofNat 17 (max s.i.toNat 0x1000))))

/-- MOVM store (R154): `V[r]` at `I + r` for every `r` up to and including `x`, every other byte kept, `I` kept (D21);
no partial store (D6). -/
def Obligations.MovmStoresTheRegisters : Prop :=
  ∀ (x : Nibble) (s : State),
    (s.i.toNat + x.toNat ≤ 0xFFF → ∃ t, exec (.movmStore x) s = .next t ∧
      (∀ r : Nibble, r.toNat ≤ x.toNat → t.readByte (s.i.toNat + r.toNat) = s.getV r) ∧
      (∀ a, (a < s.i.toNat ∨ s.i.toNat + x.toNat < a) → t.readByte a = s.readByte a) ∧
      t.pc = s.pc + 2 ∧ s.changesOnly t [.memory, .pc]) ∧
    (0xFFF < s.i.toNat + x.toNat → exec (.movmStore x) s =
      .fault (.indexOutOfRange (BitVec.ofNat 16 (0xF055 + x.toNat * 256)) s.pc
        (BitVec.ofNat 17 (max s.i.toNat 0x1000))))

/-- MOVM load (R155): `V[r]` from `I + r` for every `r` up to and including `x`, the other registers kept, `I` kept
(D21); no partial load (D6). -/
def Obligations.MovmLoadsTheRegisters : Prop :=
  ∀ (x : Nibble) (s : State),
    (s.i.toNat + x.toNat ≤ 0xFFF → ∃ t, exec (.movmLoad x) s = .next t ∧
      (∀ r : Nibble, t.getV r = if r.toNat ≤ x.toNat then s.readByte (s.i.toNat + r.toNat) else s.getV r) ∧
      t.pc = s.pc + 2 ∧ s.changesOnly t [.regs, .pc]) ∧
    (0xFFF < s.i.toNat + x.toNat → exec (.movmLoad x) s =
      .fault (.indexOutOfRange (BitVec.ofNat 16 (0xF065 + x.toNat * 256)) s.pc
        (BitVec.ofNat 17 (max s.i.toNat 0x1000))))

/-- R55: what MOVM stores is what a fetch at once finds there: the two bytes stored at `p` and `p + 1` are the next
opcode at `p`. -/
def Obligations.StoredBytesAreFetchedAtOnce : Prop :=
  ∀ (x r r' : Nibble) (s t : State) (p : Word), exec (.movmStore x) s = .next t →
    r'.toNat = r.toNat + 1 → r'.toNat ≤ x.toNat → p.toNat = s.i.toNat + r.toNat →
    State.fetch { t with pc := p } = .ok (wordOfBytes (s.getV r) (s.getV r'))

/-! ### Display and keypad -/

/-- R170: the word `00E0`; all 2048 cells in the one step. -/
def Obligations.ClsClearsEveryCell : Prop :=
  ∀ s : State, decode 0x00E0 = .ok .cls ∧ ∃ t, exec .cls s = .next t ∧
    (∀ r c, t.fb.cell r c = false) ∧ t.pc = s.pc + 2 ∧ s.changesOnly t [.display, .pc]

/-- DRAW (R171) in closed form, against the loop of the meaning: every cell is XORed with the sprite's bit on it,
around the edges, and VF is 1 exactly when a lit cell is covered. The bit order (D13), the range of rows (D27), the
position from the old VF (D10) and the fault (D6) are the spec's decisions. -/
def Obligations.DrawXorsTheSprite : Prop :=
  ∀ (x y n : Nibble) (s : State) (covered : Fin 32 → Fin 64 → Bool),
    covered = spriteCovers (s.getV x).toNat (s.getV y).toNat
      ((List.range n.toNat).map fun row => s.readByte (s.i.toNat + row)) →
    ((n = 0 ∨ s.i.toNat + n.toNat - 1 ≤ 0xFFF) → ∃ t, exec (.draw x y n) s = .next t ∧
      (∀ r c, t.fb.cell r c = (s.fb.cell r c ^^ covered r c)) ∧
      (t.getV 15 = 0 ∨ t.getV 15 = 1) ∧
      (t.getV 15 = 1 ↔ ∃ r c, covered r c = true ∧ s.fb.cell r c = true) ∧
      (∀ r, r ≠ 15 → t.getV r = s.getV r) ∧
      t.pc = s.pc + 2 ∧ s.changesOnly t [.regs, .display, .pc]) ∧
    (n ≠ 0 → 0xFFF < s.i.toNat + n.toNat - 1 → exec (.draw x y n) s =
      .fault (.indexOutOfRange (BitVec.ofNat 16 (0xD000 + x.toNat * 256 + y.toNat * 16 + n.toNat)) s.pc
        (BitVec.ofNat 17 (max s.i.toNat 0x1000))))

/-- The same sprite drawn twice (95_test_vectors.md S8, for every display and sprite) leaves the display as it was,
and the second VF is 1 exactly when the sprite covers a cell that was unlit. The position registers are not VF, which
the first DRAW overwrites: with `x = 15` or `y = 15` the second sprite stands elsewhere. -/
def Obligations.DrawTwiceRestoresTheDisplay : Prop :=
  ∀ (x y n : Nibble) (s : State), x ≠ 15 → y ≠ 15 → (n = 0 ∨ s.i.toNat + n.toNat - 1 ≤ 0xFFF) →
    ∃ t u, exec (.draw x y n) s = .next t ∧ exec (.draw x y n) t = .next u ∧
      (∀ r c, u.fb.cell r c = s.fb.cell r c) ∧
      (u.getV 15 = 1 ↔ ∃ r c, s.fb.cell r c = false ∧ t.fb.cell r c = true)

/-- SKIPKEY.Y and SKIPKEY.N (R172, R173): on the sampled keypad; a register above 15 is `IndexOutOfRange` (D7). -/
def Obligations.KeySkips : Prop :=
  ∀ (x : Nibble) (s : State),
    ((s.getV x).toNat ≤ 15 →
      (∃ t, exec (.skipKeyY x) s = .next t ∧
        t.pc = (if s.keys.getLsbD (s.getV x).toNat = true then s.pc + 4 else s.pc + 2) ∧ s.changesOnly t [.pc]) ∧
      (∃ t, exec (.skipKeyN x) s = .next t ∧
        t.pc = (if s.keys.getLsbD (s.getV x).toNat = false then s.pc + 4 else s.pc + 2) ∧ s.changesOnly t [.pc])) ∧
    (15 < (s.getV x).toNat →
      exec (.skipKeyY x) s = .fault (.indexOutOfRange (BitVec.ofNat 16 (0xE09E + x.toNat * 256)) s.pc
        (BitVec.ofNat 17 (s.getV x).toNat)) ∧
      exec (.skipKeyN x) s = .fault (.indexOutOfRange (BitVec.ofNat 16 (0xE0A1 + x.toNat * 256)) s.pc
        (BitVec.ofNat 17 (s.getV x).toNat))) ∧
    ∀ (keys : Keys) (rnd : Byte), (s.withInput keys rnd).keys = keys

/-- KEY (R174): with no key down the instruction succeeds and changes nothing (the tick comes after, D19); else the
lowest key that is down (D14) goes to `V[x]`. -/
def Obligations.KeyWaitsForAKey : Prop :=
  ∀ (x : Nibble) (s : State),
    (s.keys = 0 → exec (.key x) s = .next s) ∧
    (s.keys ≠ 0 → ∃ t k, exec (.key x) s = .next t ∧
      k < 16 ∧ s.keys.getLsbD k = true ∧ (∀ j, j < k → s.keys.getLsbD j = false) ∧
      (t.getV x).toNat = k ∧ (∀ r, r ≠ x → t.getV r = s.getV r) ∧
      t.pc = s.pc + 2 ∧ s.changesOnly t [.regs, .pc])

/-! ### Timers -/

/-- R190: the words `Fx07`; the value of `DT` at the start of the step goes to `V[x]`; after the step `DT` holds one less, or 0. -/
def Obligations.MovFromDelayTimer : Prop :=
  ∀ (x : Nibble) (s : State),
    decode (BitVec.ofNat 16 (0xF007 + x.toNat * 256)) = .ok (.movVxDt x) ∧
    (∃ t, exec (.movVxDt x) s = .next t ∧
      t.getV x = s.dt ∧ (∀ r, r ≠ x → t.getV r = s.getV r) ∧ t.pc = s.pc + 2 ∧ s.changesOnly t [.regs, .pc]) ∧
    (∀ w, s.fetch = .ok w → decode w = .ok (.movVxDt x) →
      ∃ u, step s = .next u ∧ u.getV x = s.dt ∧ u.dt.toNat = s.dt.toNat - 1)

/-- Fx15 and Fx18 (R191, R192): the register goes to the timer; the tick of the same step acts on the value just
written (the spec's decision D29). -/
def Obligations.MovToTheTimers : Prop :=
  ∀ (x : Nibble) (s : State),
    (∃ t, exec (.movDtVx x) s = .next t ∧ t.dt = s.getV x ∧ t.pc = s.pc + 2 ∧
      s.changesOnly t [.delayTimer, .pc]) ∧
    (∃ t, exec (.movStVx x) s = .next t ∧ t.st = s.getV x ∧ t.pc = s.pc + 2 ∧
      s.changesOnly t [.soundTimer, .pc]) ∧
    (∀ w, s.fetch = .ok w → decode w = .ok (.movDtVx x) →
      ∃ u, step s = .next u ∧ u.dt.toNat = (s.getV x).toNat - 1) ∧
    (∀ w, s.fetch = .ok w → decode w = .ok (.movStVx x) →
      ∃ u, step s = .next u ∧ u.st.toNat = (s.getV x).toNat - 1)
end

