-- ==== Sys2Proof/Laws/Decode.lean ====
section
/-! SUPPORT. Words as numbers, and what the decoder reads from the words the encoder writes. -/

namespace Sys2Proof

theorem wordNNN_toNat (op : Nibble) (nnn : Addr12) : (wordNNN op nnn).toNat = op.toNat * 4096 + nnn.toNat := by
  simp only [wordNNN, BitVec.toNat_append]
  rw [← Nat.shiftLeft_add_eq_or_of_lt nnn.isLt, Nat.shiftLeft_eq]

theorem wordXNN_toNat (op x : Nibble) (nn : Byte) :
    (wordXNN op x nn).toNat = op.toNat * 4096 + x.toNat * 256 + nn.toNat := by
  simp only [wordXNN, BitVec.toNat_append]
  rw [← Nat.shiftLeft_add_eq_or_of_lt nn.isLt, ← Nat.shiftLeft_add_eq_or_of_lt x.isLt, Nat.shiftLeft_eq,
    Nat.shiftLeft_eq]
  omega

theorem wordXYN_toNat (op x y n : Nibble) :
    (wordXYN op x y n).toNat = op.toNat * 4096 + x.toNat * 256 + y.toNat * 16 + n.toNat := by
  simp only [wordXYN, BitVec.toNat_append]
  rw [← Nat.shiftLeft_add_eq_or_of_lt n.isLt, ← Nat.shiftLeft_add_eq_or_of_lt y.isLt,
    ← Nat.shiftLeft_add_eq_or_of_lt x.isLt, Nat.shiftLeft_eq, Nat.shiftLeft_eq, Nat.shiftLeft_eq]
  omega

theorem decodeFields_op (w : Word) : (decodeFields w).op.toNat = w.toNat / 4096 := by
  have := w.isLt
  simp only [decodeFields, BitVec.extractLsb'_toNat, Nat.shiftRight_eq_div_pow]
  omega

theorem decodeFields_x (w : Word) : (decodeFields w).x.toNat = w.toNat / 256 % 16 := by
  simp [decodeFields, Nat.shiftRight_eq_div_pow]

theorem decodeFields_y (w : Word) : (decodeFields w).y.toNat = w.toNat / 16 % 16 := by
  simp [decodeFields, Nat.shiftRight_eq_div_pow]

theorem decodeFields_n (w : Word) : (decodeFields w).n.toNat = w.toNat % 16 := by
  simp [decodeFields]

theorem decodeFields_nn (w : Word) : (decodeFields w).nn.toNat = w.toNat % 256 := by
  simp [decodeFields]

theorem decodeFields_nnn (w : Word) : (decodeFields w).nnn.toNat = w.toNat % 4096 := by
  simp [decodeFields]

/-- The fields of a word in format NNN. -/
theorem decodeFields_wordNNN (op : Nibble) (nnn : Addr12) :
    (decodeFields (wordNNN op nnn)).op = op ∧ (decodeFields (wordNNN op nnn)).nnn = nnn := by
  have := op.isLt
  have := nnn.isLt
  refine ⟨BitVec.eq_of_toNat_eq ?_, BitVec.eq_of_toNat_eq ?_⟩
  · rw [decodeFields_op, wordNNN_toNat]; omega
  · rw [decodeFields_nnn, wordNNN_toNat]; omega

/-- The fields of a word in format XNN or XFN. -/
theorem decodeFields_wordXNN (op x : Nibble) (nn : Byte) :
    (decodeFields (wordXNN op x nn)).op = op ∧ (decodeFields (wordXNN op x nn)).x = x ∧
      (decodeFields (wordXNN op x nn)).nn = nn := by
  have := op.isLt
  have := x.isLt
  have := nn.isLt
  refine ⟨BitVec.eq_of_toNat_eq ?_, BitVec.eq_of_toNat_eq ?_, BitVec.eq_of_toNat_eq ?_⟩
  · rw [decodeFields_op, wordXNN_toNat]; omega
  · rw [decodeFields_x, wordXNN_toNat]; omega
  · rw [decodeFields_nn, wordXNN_toNat]; omega

/-- The fields of a word in format XYN. -/
theorem decodeFields_wordXYN (op x y n : Nibble) :
    (decodeFields (wordXYN op x y n)).op = op ∧ (decodeFields (wordXYN op x y n)).x = x ∧
      (decodeFields (wordXYN op x y n)).y = y ∧ (decodeFields (wordXYN op x y n)).n = n := by
  have := op.isLt
  have := x.isLt
  have := y.isLt
  have := n.isLt
  refine ⟨BitVec.eq_of_toNat_eq ?_, BitVec.eq_of_toNat_eq ?_, BitVec.eq_of_toNat_eq ?_, BitVec.eq_of_toNat_eq ?_⟩
  · rw [decodeFields_op, wordXYN_toNat]; omega
  · rw [decodeFields_x, wordXYN_toNat]; omega
  · rw [decodeFields_y, wordXYN_toNat]; omega
  · rw [decodeFields_n, wordXYN_toNat]; omega

/-- Storing a word as two bytes and reading it back gives the word (R44). -/
theorem wordOfBytes_high_low (w : Word) : wordOfBytes (highByte w) (lowByte w) = w := by
  have h := w.isLt
  apply BitVec.eq_of_toNat_eq
  simp only [wordOfBytes, highByte, lowByte, BitVec.toNat_append]
  rw [← Nat.shiftLeft_add_eq_or_of_lt (BitVec.isLt _), Nat.shiftLeft_eq]
  simp only [BitVec.extractLsb'_toNat, Nat.shiftRight_eq_div_pow]
  omega

/-- The word of two bytes as a number: the first byte is the high one (R44). -/
theorem wordOfBytes_toNat (hi lo : Byte) : (wordOfBytes hi lo).toNat = hi.toNat * 256 + lo.toNat := by
  simp only [wordOfBytes, BitVec.toNat_append]
  rw [← Nat.shiftLeft_add_eq_or_of_lt lo.isLt, Nat.shiftLeft_eq]

/-- Decoding a word with known fields. -/
theorem decode_of_dispatch {w : Word} {i : Instr} (h : dispatch (decodeFields w) = some i) : decode w = .ok i := by
  simp [decode, h]

end Sys2Proof
end

