-- ==== Sys2Proof/Laws/State.lean ====
section
/-! SUPPORT. What each update of the state leaves alone and writes: one lemma per field per update, so that no proof
unfolds a record update. -/

namespace Sys2Proof.Machine

/-! ### `V[x] <- b` -/

@[simp] theorem State.setV_i (s : State) (x : Nibble) (b : Byte) : (s.setV x b).i = s.i := rfl
@[simp] theorem State.setV_pc (s : State) (x : Nibble) (b : Byte) : (s.setV x b).pc = s.pc := rfl
@[simp] theorem State.setV_sp (s : State) (x : Nibble) (b : Byte) : (s.setV x b).sp = s.sp := rfl
@[simp] theorem State.setV_stk (s : State) (x : Nibble) (b : Byte) : (s.setV x b).stk = s.stk := rfl
@[simp] theorem State.setV_dt (s : State) (x : Nibble) (b : Byte) : (s.setV x b).dt = s.dt := rfl
@[simp] theorem State.setV_st (s : State) (x : Nibble) (b : Byte) : (s.setV x b).st = s.st := rfl
@[simp] theorem State.setV_mem (s : State) (x : Nibble) (b : Byte) : (s.setV x b).mem = s.mem := rfl
@[simp] theorem State.setV_fb (s : State) (x : Nibble) (b : Byte) : (s.setV x b).fb = s.fb := rfl
@[simp] theorem State.setV_cfg (s : State) (x : Nibble) (b : Byte) : (s.setV x b).cfg = s.cfg := rfl
@[simp] theorem State.setV_pending (s : State) (x : Nibble) (b : Byte) : (s.setV x b).pending = s.pending := rfl
@[simp] theorem State.setV_drawn (s : State) (x : Nibble) (b : Byte) : (s.setV x b).drawn = s.drawn := rfl

/-! ### The flag -/

@[simp] theorem State.setFlag_i (s : State) (f : Bool) : (s.setFlag f).i = s.i := rfl
@[simp] theorem State.setFlag_pc (s : State) (f : Bool) : (s.setFlag f).pc = s.pc := rfl
@[simp] theorem State.setFlag_sp (s : State) (f : Bool) : (s.setFlag f).sp = s.sp := rfl
@[simp] theorem State.setFlag_stk (s : State) (f : Bool) : (s.setFlag f).stk = s.stk := rfl
@[simp] theorem State.setFlag_dt (s : State) (f : Bool) : (s.setFlag f).dt = s.dt := rfl
@[simp] theorem State.setFlag_st (s : State) (f : Bool) : (s.setFlag f).st = s.st := rfl
@[simp] theorem State.setFlag_mem (s : State) (f : Bool) : (s.setFlag f).mem = s.mem := rfl
@[simp] theorem State.setFlag_fb (s : State) (f : Bool) : (s.setFlag f).fb = s.fb := rfl
@[simp] theorem State.setFlag_cfg (s : State) (f : Bool) : (s.setFlag f).cfg = s.cfg := rfl
@[simp] theorem State.setFlag_pending (s : State) (f : Bool) : (s.setFlag f).pending = s.pending := rfl
@[simp] theorem State.setFlag_drawn (s : State) (f : Bool) : (s.setFlag f).drawn = s.drawn := rfl

/-! ### `advance` -/

@[simp] theorem State.advance_v (s : State) : (s.advance).v = s.v := rfl
@[simp] theorem State.advance_i (s : State) : (s.advance).i = s.i := rfl
@[simp] theorem State.advance_sp (s : State) : (s.advance).sp = s.sp := rfl
@[simp] theorem State.advance_stk (s : State) : (s.advance).stk = s.stk := rfl
@[simp] theorem State.advance_dt (s : State) : (s.advance).dt = s.dt := rfl
@[simp] theorem State.advance_st (s : State) : (s.advance).st = s.st := rfl
@[simp] theorem State.advance_mem (s : State) : (s.advance).mem = s.mem := rfl
@[simp] theorem State.advance_fb (s : State) : (s.advance).fb = s.fb := rfl
@[simp] theorem State.advance_cfg (s : State) : (s.advance).cfg = s.cfg := rfl
@[simp] theorem State.advance_pending (s : State) : (s.advance).pending = s.pending := rfl
@[simp] theorem State.advance_drawn (s : State) : (s.advance).drawn = s.drawn := rfl
@[simp] theorem State.advance_pc (s : State) : s.advance.pc = s.pc + 2 := rfl

/-! ### `skip` or `advance` -/

@[simp] theorem State.skipIf_v (s : State) (c : Bool) : (s.skipIf c).v = s.v := rfl
@[simp] theorem State.skipIf_i (s : State) (c : Bool) : (s.skipIf c).i = s.i := rfl
@[simp] theorem State.skipIf_sp (s : State) (c : Bool) : (s.skipIf c).sp = s.sp := rfl
@[simp] theorem State.skipIf_stk (s : State) (c : Bool) : (s.skipIf c).stk = s.stk := rfl
@[simp] theorem State.skipIf_dt (s : State) (c : Bool) : (s.skipIf c).dt = s.dt := rfl
@[simp] theorem State.skipIf_st (s : State) (c : Bool) : (s.skipIf c).st = s.st := rfl
@[simp] theorem State.skipIf_mem (s : State) (c : Bool) : (s.skipIf c).mem = s.mem := rfl
@[simp] theorem State.skipIf_fb (s : State) (c : Bool) : (s.skipIf c).fb = s.fb := rfl
@[simp] theorem State.skipIf_cfg (s : State) (c : Bool) : (s.skipIf c).cfg = s.cfg := rfl
@[simp] theorem State.skipIf_pending (s : State) (c : Bool) : (s.skipIf c).pending = s.pending := rfl
@[simp] theorem State.skipIf_drawn (s : State) (c : Bool) : (s.skipIf c).drawn = s.drawn := rfl
@[simp] theorem State.skipIf_pc (s : State) (c : Bool) : (s.skipIf c).pc = if c then s.pc + 4 else s.pc + 2 := rfl

/-! ### `MEM[a] <- b` -/

@[simp] theorem State.writeByte_v (s : State) (a : Nat) (b : Byte) : (s.writeByte a b).v = s.v := rfl
@[simp] theorem State.writeByte_i (s : State) (a : Nat) (b : Byte) : (s.writeByte a b).i = s.i := rfl
@[simp] theorem State.writeByte_pc (s : State) (a : Nat) (b : Byte) : (s.writeByte a b).pc = s.pc := rfl
@[simp] theorem State.writeByte_sp (s : State) (a : Nat) (b : Byte) : (s.writeByte a b).sp = s.sp := rfl
@[simp] theorem State.writeByte_stk (s : State) (a : Nat) (b : Byte) : (s.writeByte a b).stk = s.stk := rfl
@[simp] theorem State.writeByte_dt (s : State) (a : Nat) (b : Byte) : (s.writeByte a b).dt = s.dt := rfl
@[simp] theorem State.writeByte_st (s : State) (a : Nat) (b : Byte) : (s.writeByte a b).st = s.st := rfl
@[simp] theorem State.writeByte_fb (s : State) (a : Nat) (b : Byte) : (s.writeByte a b).fb = s.fb := rfl
@[simp] theorem State.writeByte_cfg (s : State) (a : Nat) (b : Byte) : (s.writeByte a b).cfg = s.cfg := rfl
@[simp] theorem State.writeByte_pending (s : State) (a : Nat) (b : Byte) :
    (s.writeByte a b).pending = s.pending := rfl
@[simp] theorem State.writeByte_drawn (s : State) (a : Nat) (b : Byte) : (s.writeByte a b).drawn = s.drawn := rfl
@[simp] theorem State.writeByte_mem (s : State) (a : Nat) (b : Byte) :
    (s.writeByte a b).mem = Memory.put s.cfg s.mem a b := rfl

/-! ### Bytes stored in sequence -/

@[simp] theorem State.writeBytes_v (s : State) (a : Nat) (bs : List Byte) : (s.writeBytes a bs).v = s.v := by
  induction bs generalizing s a with
  | nil => rfl
  | cons b bs ih => simp [State.writeBytes, ih]
@[simp] theorem State.writeBytes_i (s : State) (a : Nat) (bs : List Byte) : (s.writeBytes a bs).i = s.i := by
  induction bs generalizing s a with
  | nil => rfl
  | cons b bs ih => simp [State.writeBytes, ih]
@[simp] theorem State.writeBytes_pc (s : State) (a : Nat) (bs : List Byte) : (s.writeBytes a bs).pc = s.pc := by
  induction bs generalizing s a with
  | nil => rfl
  | cons b bs ih => simp [State.writeBytes, ih]
@[simp] theorem State.writeBytes_sp (s : State) (a : Nat) (bs : List Byte) : (s.writeBytes a bs).sp = s.sp := by
  induction bs generalizing s a with
  | nil => rfl
  | cons b bs ih => simp [State.writeBytes, ih]
@[simp] theorem State.writeBytes_stk (s : State) (a : Nat) (bs : List Byte) : (s.writeBytes a bs).stk = s.stk := by
  induction bs generalizing s a with
  | nil => rfl
  | cons b bs ih => simp [State.writeBytes, ih]
@[simp] theorem State.writeBytes_dt (s : State) (a : Nat) (bs : List Byte) : (s.writeBytes a bs).dt = s.dt := by
  induction bs generalizing s a with
  | nil => rfl
  | cons b bs ih => simp [State.writeBytes, ih]
@[simp] theorem State.writeBytes_st (s : State) (a : Nat) (bs : List Byte) : (s.writeBytes a bs).st = s.st := by
  induction bs generalizing s a with
  | nil => rfl
  | cons b bs ih => simp [State.writeBytes, ih]
@[simp] theorem State.writeBytes_fb (s : State) (a : Nat) (bs : List Byte) : (s.writeBytes a bs).fb = s.fb := by
  induction bs generalizing s a with
  | nil => rfl
  | cons b bs ih => simp [State.writeBytes, ih]
@[simp] theorem State.writeBytes_cfg (s : State) (a : Nat) (bs : List Byte) : (s.writeBytes a bs).cfg = s.cfg := by
  induction bs generalizing s a with
  | nil => rfl
  | cons b bs ih => simp [State.writeBytes, ih]
@[simp] theorem State.writeBytes_pending (s : State) (a : Nat) (bs : List Byte) : (s.writeBytes a bs).pending = s.pending := by
  induction bs generalizing s a with
  | nil => rfl
  | cons b bs ih => simp [State.writeBytes, ih]
@[simp] theorem State.writeBytes_drawn (s : State) (a : Nat) (bs : List Byte) : (s.writeBytes a bs).drawn = s.drawn := by
  induction bs generalizing s a with
  | nil => rfl
  | cons b bs ih => simp [State.writeBytes, ih]

/-! ### The load of `V[0]` to `V[x]` -/

@[simp] theorem State.loadRegs_i (s : State) (x : Nibble) (a : Nat) : (s.loadRegs x a).i = s.i := rfl
@[simp] theorem State.loadRegs_pc (s : State) (x : Nibble) (a : Nat) : (s.loadRegs x a).pc = s.pc := rfl
@[simp] theorem State.loadRegs_sp (s : State) (x : Nibble) (a : Nat) : (s.loadRegs x a).sp = s.sp := rfl
@[simp] theorem State.loadRegs_stk (s : State) (x : Nibble) (a : Nat) : (s.loadRegs x a).stk = s.stk := rfl
@[simp] theorem State.loadRegs_dt (s : State) (x : Nibble) (a : Nat) : (s.loadRegs x a).dt = s.dt := rfl
@[simp] theorem State.loadRegs_st (s : State) (x : Nibble) (a : Nat) : (s.loadRegs x a).st = s.st := rfl
@[simp] theorem State.loadRegs_mem (s : State) (x : Nibble) (a : Nat) : (s.loadRegs x a).mem = s.mem := rfl
@[simp] theorem State.loadRegs_fb (s : State) (x : Nibble) (a : Nat) : (s.loadRegs x a).fb = s.fb := rfl
@[simp] theorem State.loadRegs_cfg (s : State) (x : Nibble) (a : Nat) : (s.loadRegs x a).cfg = s.cfg := rfl
@[simp] theorem State.loadRegs_pending (s : State) (x : Nibble) (a : Nat) :
    (s.loadRegs x a).pending = s.pending := rfl
@[simp] theorem State.loadRegs_drawn (s : State) (x : Nibble) (a : Nat) : (s.loadRegs x a).drawn = s.drawn := rfl

/-! ### The tick -/

@[simp] theorem State.tick_v (s : State) : (s.tick).v = s.v := rfl
@[simp] theorem State.tick_i (s : State) : (s.tick).i = s.i := rfl
@[simp] theorem State.tick_pc (s : State) : (s.tick).pc = s.pc := rfl
@[simp] theorem State.tick_sp (s : State) : (s.tick).sp = s.sp := rfl
@[simp] theorem State.tick_stk (s : State) : (s.tick).stk = s.stk := rfl
@[simp] theorem State.tick_mem (s : State) : (s.tick).mem = s.mem := rfl
@[simp] theorem State.tick_fb (s : State) : (s.tick).fb = s.fb := rfl
@[simp] theorem State.tick_cfg (s : State) : (s.tick).cfg = s.cfg := rfl
@[simp] theorem State.tick_pending (s : State) : (s.tick).pending = s.pending := rfl
@[simp] theorem State.tick_drawn (s : State) : (s.tick).drawn = s.drawn := rfl
@[simp] theorem State.tick_dt (s : State) : s.tick.dt = tickTimer s.dt := rfl
@[simp] theorem State.tick_st (s : State) : s.tick.st = tickTimer s.st := rfl

/-! ### The input of the step -/

@[simp] theorem State.takeInput_v (s : State) : (s.takeInput).v = s.v := by
  unfold State.takeInput; split <;> rfl
@[simp] theorem State.takeInput_i (s : State) : (s.takeInput).i = s.i := by
  unfold State.takeInput; split <;> rfl
@[simp] theorem State.takeInput_pc (s : State) : (s.takeInput).pc = s.pc := by
  unfold State.takeInput; split <;> rfl
@[simp] theorem State.takeInput_sp (s : State) : (s.takeInput).sp = s.sp := by
  unfold State.takeInput; split <;> rfl
@[simp] theorem State.takeInput_stk (s : State) :
    (s.takeInput).stk = s.stk := by
  unfold State.takeInput; split <;> rfl
@[simp] theorem State.takeInput_dt (s : State) : (s.takeInput).dt = s.dt := by
  unfold State.takeInput; split <;> rfl
@[simp] theorem State.takeInput_st (s : State) : (s.takeInput).st = s.st := by
  unfold State.takeInput; split <;> rfl
@[simp] theorem State.takeInput_mem (s : State) :
    (s.takeInput).mem = s.mem := by
  unfold State.takeInput; split <;> rfl
@[simp] theorem State.takeInput_fb (s : State) : (s.takeInput).fb = s.fb := by
  unfold State.takeInput; split <;> rfl
@[simp] theorem State.takeInput_cfg (s : State) :
    (s.takeInput).cfg = s.cfg := by
  unfold State.takeInput; split <;> rfl

/-! ### The ALU result without its flag -/

@[simp] theorem State.writeResult_i (s : State) (x : Nibble) (o : AluOut) : (s.writeResult x o).i = s.i := rfl
@[simp] theorem State.writeResult_pc (s : State) (x : Nibble) (o : AluOut) : (s.writeResult x o).pc = s.pc := rfl
@[simp] theorem State.writeResult_sp (s : State) (x : Nibble) (o : AluOut) : (s.writeResult x o).sp = s.sp := rfl
@[simp] theorem State.writeResult_stk (s : State) (x : Nibble) (o : AluOut) : (s.writeResult x o).stk = s.stk := rfl
@[simp] theorem State.writeResult_dt (s : State) (x : Nibble) (o : AluOut) : (s.writeResult x o).dt = s.dt := rfl
@[simp] theorem State.writeResult_st (s : State) (x : Nibble) (o : AluOut) : (s.writeResult x o).st = s.st := rfl
@[simp] theorem State.writeResult_mem (s : State) (x : Nibble) (o : AluOut) : (s.writeResult x o).mem = s.mem := rfl
@[simp] theorem State.writeResult_fb (s : State) (x : Nibble) (o : AluOut) : (s.writeResult x o).fb = s.fb := rfl
@[simp] theorem State.writeResult_cfg (s : State) (x : Nibble) (o : AluOut) : (s.writeResult x o).cfg = s.cfg := rfl
@[simp] theorem State.writeResult_pending (s : State) (x : Nibble) (o : AluOut) :
    (s.writeResult x o).pending = s.pending := rfl
@[simp] theorem State.writeResult_drawn (s : State) (x : Nibble) (o : AluOut) :
    (s.writeResult x o).drawn = s.drawn := rfl

/-! ### The ALU result and its flag -/

@[simp] theorem State.writeResultAndFlag_i (s : State) (x : Nibble) (o : AluOut) :
    (s.writeResultAndFlag x o).i = s.i := by
  unfold State.writeResultAndFlag; split <;> rfl
@[simp] theorem State.writeResultAndFlag_pc (s : State) (x : Nibble) (o : AluOut) :
    (s.writeResultAndFlag x o).pc = s.pc := by
  unfold State.writeResultAndFlag; split <;> rfl
@[simp] theorem State.writeResultAndFlag_sp (s : State) (x : Nibble) (o : AluOut) :
    (s.writeResultAndFlag x o).sp = s.sp := by
  unfold State.writeResultAndFlag; split <;> rfl
@[simp] theorem State.writeResultAndFlag_stk (s : State) (x : Nibble) (o : AluOut) :
    (s.writeResultAndFlag x o).stk = s.stk := by
  unfold State.writeResultAndFlag; split <;> rfl
@[simp] theorem State.writeResultAndFlag_dt (s : State) (x : Nibble) (o : AluOut) :
    (s.writeResultAndFlag x o).dt = s.dt := by
  unfold State.writeResultAndFlag; split <;> rfl
@[simp] theorem State.writeResultAndFlag_st (s : State) (x : Nibble) (o : AluOut) :
    (s.writeResultAndFlag x o).st = s.st := by
  unfold State.writeResultAndFlag; split <;> rfl
@[simp] theorem State.writeResultAndFlag_mem (s : State) (x : Nibble) (o : AluOut) :
    (s.writeResultAndFlag x o).mem = s.mem := by
  unfold State.writeResultAndFlag; split <;> rfl
@[simp] theorem State.writeResultAndFlag_fb (s : State) (x : Nibble) (o : AluOut) :
    (s.writeResultAndFlag x o).fb = s.fb := by
  unfold State.writeResultAndFlag; split <;> rfl
@[simp] theorem State.writeResultAndFlag_cfg (s : State) (x : Nibble) (o : AluOut) :
    (s.writeResultAndFlag x o).cfg = s.cfg := by
  unfold State.writeResultAndFlag; split <;> rfl
@[simp] theorem State.writeResultAndFlag_pending (s : State) (x : Nibble) (o : AluOut) :
    (s.writeResultAndFlag x o).pending = s.pending := by
  unfold State.writeResultAndFlag; split <;> rfl
@[simp] theorem State.writeResultAndFlag_drawn (s : State) (x : Nibble) (o : AluOut) :
    (s.writeResultAndFlag x o).drawn = s.drawn := by
  unfold State.writeResultAndFlag; split <;> rfl

/-! ### A class 8 instruction -/

@[simp] theorem State.aluStep_i (s : State) (op : AluOp) (x : Nibble) (a b : Byte) :
    (s.aluStep op x a b).i = s.i := by simp [State.aluStep]
@[simp] theorem State.aluStep_sp (s : State) (op : AluOp) (x : Nibble) (a b : Byte) :
    (s.aluStep op x a b).sp = s.sp := by simp [State.aluStep]
@[simp] theorem State.aluStep_stk (s : State) (op : AluOp) (x : Nibble) (a b : Byte) :
    (s.aluStep op x a b).stk = s.stk := by simp [State.aluStep]
@[simp] theorem State.aluStep_dt (s : State) (op : AluOp) (x : Nibble) (a b : Byte) :
    (s.aluStep op x a b).dt = s.dt := by simp [State.aluStep]
@[simp] theorem State.aluStep_st (s : State) (op : AluOp) (x : Nibble) (a b : Byte) :
    (s.aluStep op x a b).st = s.st := by simp [State.aluStep]
@[simp] theorem State.aluStep_mem (s : State) (op : AluOp) (x : Nibble) (a b : Byte) :
    (s.aluStep op x a b).mem = s.mem := by simp [State.aluStep]
@[simp] theorem State.aluStep_fb (s : State) (op : AluOp) (x : Nibble) (a b : Byte) :
    (s.aluStep op x a b).fb = s.fb := by simp [State.aluStep]
@[simp] theorem State.aluStep_cfg (s : State) (op : AluOp) (x : Nibble) (a b : Byte) :
    (s.aluStep op x a b).cfg = s.cfg := by simp [State.aluStep]
@[simp] theorem State.aluStep_pending (s : State) (op : AluOp) (x : Nibble) (a b : Byte) :
    (s.aluStep op x a b).pending = s.pending := by simp [State.aluStep]
@[simp] theorem State.aluStep_drawn (s : State) (op : AluOp) (x : Nibble) (a b : Byte) :
    (s.aluStep op x a b).drawn = s.drawn := by simp [State.aluStep]
@[simp] theorem State.aluStep_pc (s : State) (op : AluOp) (x : Nibble) (a b : Byte) :
    (s.aluStep op x a b).pc = s.pc + 2 := by simp [State.aluStep]

/-! ### Reading back a register -/

@[simp] theorem State.getV_setV_same (s : State) (x : Nibble) (b : Byte) : (s.setV x b).getV x = b := by
  simp [State.getV, State.setV]

theorem State.getV_setV (s : State) (x r : Nibble) (b : Byte) :
    (s.setV x b).getV r = if r = x then b else s.getV r := by
  simp only [State.getV, State.setV, Vector.getElem_set, BitVec.toNat_inj, eq_comm (a := x)]

theorem State.getV_setV_of_ne (s : State) (x r : Nibble) (b : Byte) (h : r ≠ x) :
    (s.setV x b).getV r = s.getV r := by
  rw [State.getV_setV, if_neg h]

@[simp] theorem State.getV_setFlag_same (s : State) (f : Bool) : (s.setFlag f).getV 15 = if f then 1 else 0 :=
  State.getV_setV_same ..

theorem State.getV_setFlag_of_ne (s : State) (f : Bool) (r : Nibble) (h : r ≠ 15) :
    (s.setFlag f).getV r = s.getV r := State.getV_setV_of_ne _ _ _ _ h

/-- A register read depends on `v` alone. -/
theorem State.getV_congr {s t : State} (h : t.v = s.v) (r : Nibble) : t.getV r = s.getV r := by
  simp [State.getV, h]

@[simp] theorem State.getV_advance (s : State) (r : Nibble) : s.advance.getV r = s.getV r := rfl

@[simp] theorem State.getV_skipIf (s : State) (c : Bool) (r : Nibble) : (s.skipIf c).getV r = s.getV r := rfl

@[simp] theorem State.getV_writeByte (s : State) (a : Nat) (b : Byte) (r : Nibble) :
    (s.writeByte a b).getV r = s.getV r := rfl

@[simp] theorem State.getV_writeBytes (s : State) (a : Nat) (bs : List Byte) (r : Nibble) :
    (s.writeBytes a bs).getV r = s.getV r := State.getV_congr (by simp) r

@[simp] theorem State.getV_tick (s : State) (r : Nibble) : s.tick.getV r = s.getV r := rfl

@[simp] theorem State.getV_takeInput (s : State) (r : Nibble) : s.takeInput.getV r = s.getV r :=
  State.getV_congr (by simp) r

/-- `V[0]` to `V[x]` come from memory, the others are kept (R155). -/
theorem State.getV_loadRegs (s : State) (x r : Nibble) (a : Nat) :
    (s.loadRegs x a).getV r = if r.toNat ≤ x.toNat then s.readByte (a + r.toNat) else s.getV r := by
  simp [State.getV, State.loadRegs]

/-- The registers after an ALU instruction that produces a flag: the flag wins in `V[15]` (R15). -/
theorem State.getV_aluStep_flag (s : State) (op : AluOp) (x r : Nibble) (a b : Byte) (f : Bool)
    (h : (alu op a b).f = some f) :
    (s.aluStep op x a b).getV r =
      if r = 15 then (if f then 1 else 0) else if r = x then (alu op a b).r else s.getV r := by
  simp only [State.aluStep, State.writeResultAndFlag, h, State.getV_advance, State.setFlag, State.getV_setV]

/-- The registers after an ALU instruction that produces no flag. -/
theorem State.getV_aluStep_noFlag (s : State) (op : AluOp) (x r : Nibble) (a b : Byte)
    (h : (alu op a b).f = none) :
    (s.aluStep op x a b).getV r = if r = x then (alu op a b).r else s.getV r := by
  simp only [State.aluStep, State.writeResultAndFlag, h, State.getV_advance, State.getV_setV]

/-! ### The stack -/

/-- Everything a push can do. -/
theorem State.push_eq_some (s : State) (a : Word) (h : s.sp.val < 16) :
    s.push a = some { s with stk := s.stk.set s.sp.val a h, sp := ⟨s.sp.val + 1, Nat.succ_lt_succ h⟩ } := by
  simp [State.push, h]

theorem State.push_eq_none_iff (s : State) (a : Word) : s.push a = none ↔ s.sp.val = 16 := by
  have := s.sp.isLt
  unfold State.push
  split
  · simp; omega
  · simp; omega

/-- Everything a pop can do. -/
theorem State.pop_eq_some (s : State) (h : s.sp.val ≠ 0) :
    s.pop = some (s.stk[s.sp.val - 1]'(by have := s.sp.isLt; omega),
      { s with sp := ⟨s.sp.val - 1, by have := s.sp.isLt; omega⟩ }) := by
  simp [State.pop, h]

theorem State.pop_eq_none_iff (s : State) : s.pop = none ↔ s.sp.val = 0 := by
  unfold State.pop
  split <;> simp_all

end Sys2Proof.Machine
end

