-- ==== Sys2Proof/Laws/Display.lean ====
section
/-! SUPPORT. The display: what a toggle, a sprite row and a whole sprite do to every cell, and when they turn a lit
cell off. The loop of DRAW touches each cell at most once (R171, corner case (e)), so its result has a closed form. -/

namespace Sys2Proof.Machine

theorem Display.cell_toggle (fb : Display) (r r' : Fin 32) (c c' : Fin 64) :
    (fb.toggle r c).cell r' c' = (fb.cell r' c' ^^ (decide (r' = r) && decide (c' = c))) := by
  simp only [Display.cell, Display.toggle, Fin.getElem_fin, Vector.getElem_set, Fin.val_inj]
  by_cases hr : r = r'
  · subst hr
    by_cases hc : c = c'
    · subst hc; simp
    · simp [hc, Ne.symm hc, Fin.val_inj]
  · simp [hr, Ne.symm hr]

@[simp] theorem Display.cell_clear (r : Fin 32) (c : Fin 64) : Display.clear.cell r c = false := by
  simp [Display.cell, Display.clear]

/-- Two displays with the same cells are the same. -/
theorem Display.ext_cell {a b : Display} (h : ∀ r c, a.cell r c = b.cell r c) : a = b := by
  refine Vector.ext fun r hr => Vector.ext fun c hc => ?_
  exact h ⟨r, hr⟩ ⟨c, hc⟩

@[simp] theorem wrapRow_val (n : Nat) : (wrapRow n).val = n % 32 := rfl

@[simp] theorem wrapCol_val (n : Nat) : (wrapCol n).val = n % 64 := rfl

/-- The columns of `cols` that set the cell in column `c`. -/
def rowHas (x0 : Nat) (bits : Byte) (cols : List Nat) (c : Fin 64) : Bool :=
  cols.any fun col => bits.getLsbD (7 - col) && decide (c = wrapCol (x0 + col))

theorem column_injective {x0 j k : Nat} (hj : j < 8) (hk : k < 8) (h : wrapCol (x0 + j) = wrapCol (x0 + k)) :
    j = k := by
  have := congrArg Fin.val h
  simp only [wrapCol_val] at this
  omega

/-- Columns are distinct, so what one of them toggles no other does. -/
theorem rowHas_eq_false {x0 k : Nat} {bits : Byte} {ks : List Nat} (hk : k < 8) (hks : ∀ j ∈ ks, j < 8)
    (hn : k ∉ ks) : rowHas x0 bits ks (wrapCol (x0 + k)) = false := by
  simp only [rowHas, List.any_eq_false, Bool.and_eq_true, decide_eq_true_eq, not_and]
  intro j hj _ h
  exact hn (column_injective hk (hks j hj) h ▸ hj)

theorem drawPixel_cell (x0 y : Nat) (bits : Byte) (acc : Display × Bool) (k : Nat) (r : Fin 32) (c : Fin 64) :
    (drawPixel x0 y bits acc k).1.cell r c =
      (acc.1.cell r c ^^ (decide (r = wrapRow y) && rowHas x0 bits [k] c)) := by
  unfold drawPixel
  split <;> rename_i h
  · simp [Display.cell_toggle, rowHas, h]
  · simp [rowHas, h]

theorem drawPixel_hit (x0 y : Nat) (bits : Byte) (acc : Display × Bool) (k : Nat) :
    (drawPixel x0 y bits acc k).2 =
      (acc.2 || (bits.getLsbD (7 - k) && acc.1.cell (wrapRow y) (wrapCol (x0 + k)))) := by
  unfold drawPixel
  split <;> rename_i h
  · simp [h]
  · simp [h]

theorem drawColumns_cell (x0 y : Nat) (bits : Byte) (cols : List Nat) (hn : cols.Nodup) (hl : ∀ j ∈ cols, j < 8)
    (acc : Display × Bool) (r : Fin 32) (c : Fin 64) :
    (cols.foldl (drawPixel x0 y bits) acc).1.cell r c =
      (acc.1.cell r c ^^ (decide (r = wrapRow y) && rowHas x0 bits cols c)) := by
  induction cols generalizing acc with
  | nil => simp [rowHas]
  | cons k ks ih =>
    have hk := hl k (by simp)
    have hks : ∀ j ∈ ks, j < 8 := fun j hj => hl j (by simp [hj])
    rw [List.nodup_cons] at hn
    rw [List.foldl_cons, ih hn.2 hks, drawPixel_cell]
    have hsplit : rowHas x0 bits (k :: ks) c = (rowHas x0 bits [k] c || rowHas x0 bits ks c) := by simp [rowHas]
    rw [hsplit]
    by_cases hc : c = wrapCol (x0 + k)
    · rw [hc, rowHas_eq_false hk hks hn.1]; simp
    · have : rowHas x0 bits [k] c = false := by simp [rowHas, hc]
      rw [this]; simp

theorem drawColumns_hit (x0 y : Nat) (bits : Byte) (cols : List Nat) (hn : cols.Nodup) (hl : ∀ j ∈ cols, j < 8)
    (acc : Display × Bool) :
    (cols.foldl (drawPixel x0 y bits) acc).2 = true ↔
      acc.2 = true ∨ ∃ c, rowHas x0 bits cols c = true ∧ acc.1.cell (wrapRow y) c = true := by
  induction cols generalizing acc with
  | nil => simp [rowHas]
  | cons k ks ih =>
    have hk := hl k (by simp)
    have hks : ∀ j ∈ ks, j < 8 := fun j hj => hl j (by simp [hj])
    rw [List.nodup_cons] at hn
    rw [List.foldl_cons, ih hn.2 hks, drawPixel_hit]
    have hcell : ∀ c, rowHas x0 bits ks c = true →
        (drawPixel x0 y bits acc k).1.cell (wrapRow y) c = acc.1.cell (wrapRow y) c := by
      intro c hc
      have hne : c ≠ wrapCol (x0 + k) := by
        rintro rfl
        rw [rowHas_eq_false hk hks hn.1] at hc
        exact absurd hc (by simp)
      rw [drawPixel_cell]
      simp [rowHas, hne]
    have hsplit : ∀ c, rowHas x0 bits (k :: ks) c = true ↔
        (bits.getLsbD (7 - k) = true ∧ c = wrapCol (x0 + k)) ∨ rowHas x0 bits ks c = true := by
      intro c; simp [rowHas]
    constructor
    · rintro (h | ⟨c, hc, hl'⟩)
      · simp only [Bool.or_eq_true, Bool.and_eq_true] at h
        rcases h with h | ⟨hb, hh⟩
        · exact .inl h
        · exact .inr ⟨_, (hsplit _).2 (.inl ⟨hb, rfl⟩), hh⟩
      · exact .inr ⟨c, (hsplit c).2 (.inr hc), (hcell c hc).symm.trans hl'⟩
    · rintro (h | ⟨c, hc, hl'⟩)
      · exact .inl (by simp [h])
      · rcases (hsplit c).1 hc with ⟨hb, rfl⟩ | hc
        · exact .inl (by simp [hb, hl'])
        · exact .inr ⟨c, hc, (hcell c hc).trans hl'⟩

/-- A row's columns in closed form: column `c` lies `dx` to the right of the start, around the edge. -/
theorem rowHas_range (x0 : Nat) (bits : Byte) (c : Fin 64) :
    rowHas x0 bits (List.range 8) c =
      (decide ((c.val + 64 - x0 % 64) % 64 < 8) && bits.getLsbD (7 - (c.val + 64 - x0 % 64) % 64)) := by
  have hc := c.isLt
  have key : ∀ col, col < 8 → (c = wrapCol (x0 + col) ↔ col = (c.val + 64 - x0 % 64) % 64) := by
    intro col hcol
    rw [Fin.ext_iff, wrapCol_val]
    omega
  rw [Bool.eq_iff_iff]
  simp only [rowHas, List.any_eq_true, List.mem_range, Bool.and_eq_true, decide_eq_true_eq]
  constructor
  · rintro ⟨col, hcol, hb, h⟩
    rw [key col hcol] at h
    subst h
    exact ⟨hcol, hb⟩
  · rintro ⟨hlt, hb⟩
    exact ⟨_, hlt, hb, (key _ hlt).2 rfl⟩

theorem nodup_range8 : (List.range 8).Nodup := List.nodup_range

/-- The cells of one sprite row. -/
theorem drawRow_cell (x0 y : Nat) (bits : Byte) (acc : Display × Bool) (r : Fin 32) (c : Fin 64) :
    (drawRow x0 y bits acc).1.cell r c =
      (acc.1.cell r c ^^ (decide (r = wrapRow y) && rowHas x0 bits (List.range 8) c)) :=
  drawColumns_cell _ _ _ _ nodup_range8 (by simp) _ _ _

/-- When one sprite row turns a lit cell off. -/
theorem drawRow_hit (x0 y : Nat) (bits : Byte) (acc : Display × Bool) :
    (drawRow x0 y bits acc).2 = true ↔
      acc.2 = true ∨ ∃ c, rowHas x0 bits (List.range 8) c = true ∧ acc.1.cell (wrapRow y) c = true :=
  drawColumns_hit _ _ _ _ nodup_range8 (by simp) _

theorem spriteCovers_eq (x0 y : Nat) (rows : List Byte) (r : Fin 32) (c : Fin 64) :
    spriteCovers x0 y rows r c = rowHas x0 (rows.getD ((r.val + 32 - y % 32) % 32) 0) (List.range 8) c := by
  rw [rowHas_range]
  simp only [spriteCovers]
  split <;> simp_all

/-- The first row and the rest of a sprite of at most 32 rows cover different display rows. -/
theorem spriteCovers_cons (x0 y : Nat) (b : Byte) (rest : List Byte) (r : Fin 32) (c : Fin 64) :
    spriteCovers x0 y (b :: rest) r c =
      if r = wrapRow y then rowHas x0 b (List.range 8) c else spriteCovers x0 (y + 1) rest r c := by
  have hr := r.isLt
  have heq : r = wrapRow y ↔ (r.val + 32 - y % 32) % 32 = 0 := by
    rw [Fin.ext_iff, wrapRow_val]; omega
  rw [spriteCovers_eq]
  split
  · rename_i hy
    rw [heq.1 hy]; simp
  · rename_i hy
    rw [heq] at hy
    rw [spriteCovers_eq, show (r.val + 32 - y % 32) % 32 = (r.val + 32 - (y + 1) % 32) % 32 + 1 by omega]
    simp

theorem spriteCovers_next_row (x0 y : Nat) (rest : List Byte) (h : rest.length < 32) (c : Fin 64) :
    spriteCovers x0 (y + 1) rest (wrapRow y) c = false := by
  rw [spriteCovers_eq, wrapRow_val, show (y % 32 + 32 - (y + 1) % 32) % 32 = 31 by omega,
    List.getD_eq_default _ _ (by omega)]
  simp [rowHas]

/-- Every cell after a sprite of at most 32 rows: XOR with the sprite (R171). -/
theorem drawSprite_cell (x0 y : Nat) (rows : List Byte) (h : rows.length ≤ 32) (acc : Display × Bool) (r : Fin 32)
    (c : Fin 64) :
    (drawSprite x0 y rows acc).1.cell r c = (acc.1.cell r c ^^ spriteCovers x0 y rows r c) := by
  induction rows generalizing y acc with
  | nil => simp [drawSprite, spriteCovers]
  | cons b rest ih =>
    simp only [List.length_cons] at h
    rw [drawSprite, ih _ (by omega), drawRow_cell, spriteCovers_cons]
    split
    · rename_i hr
      rw [hr, spriteCovers_next_row _ _ _ (by omega)]; simp
    · rename_i hr
      simp [hr]

/-- A sprite turns a lit cell off exactly when it covers one (R171). -/
theorem drawSprite_hit (x0 y : Nat) (rows : List Byte) (h : rows.length ≤ 32) (acc : Display × Bool) :
    (drawSprite x0 y rows acc).2 = true ↔
      acc.2 = true ∨ ∃ r c, spriteCovers x0 y rows r c = true ∧ acc.1.cell r c = true := by
  induction rows generalizing y acc with
  | nil => simp [drawSprite, spriteCovers]
  | cons b rest ih =>
    simp only [List.length_cons] at h
    rw [drawSprite, ih _ (by omega), drawRow_hit]
    constructor
    · rintro ((ha | ⟨c, hc, hl⟩) | ⟨r, c, hs, hl⟩)
      · exact .inl ha
      · refine .inr ⟨wrapRow y, c, ?_, hl⟩
        rwa [spriteCovers_cons, if_pos rfl]
      · have hr : r ≠ wrapRow y := by
          rintro rfl
          rw [spriteCovers_next_row _ _ _ (by omega)] at hs
          exact absurd hs (by simp)
        refine .inr ⟨r, c, ?_, ?_⟩
        · rwa [spriteCovers_cons, if_neg hr]
        · rw [drawRow_cell] at hl
          simpa [hr] using hl
    · rintro (ha | ⟨r, c, hs, hl⟩)
      · exact .inl (.inl ha)
      · rw [spriteCovers_cons] at hs
        split at hs
        · rename_i hr
          exact .inl (.inr ⟨c, hs, hr ▸ hl⟩)
        · rename_i hr
          refine .inr ⟨r, c, hs, ?_⟩
          rw [drawRow_cell]
          simpa [hr] using hl

end Sys2Proof.Machine
end

