-- ==== Sys2Proof/Laws/Memory.lean ====
section
/-! SUPPORT. Memory: a read after a write, a write leaves every other address alone, every operation keeps the
canonical form. -/

namespace Sys2Proof.Machine

/-! ### Reading after writing -/

theorem Memory.get_insert (c : Config) (m : Memory) (a r : Nat) (b : Byte) :
    Memory.get c (Memory.insert m a b) r = if r = a then b else Memory.get c m r := by
  induction m with
  | nil => simp [Memory.insert, Memory.get]
  | cons cell m ih =>
    obtain ⟨k, v⟩ := cell
    unfold Memory.insert
    split
    · simp [Memory.get]
    · split
      · subst_vars
        simp only [Memory.get]
        split <;> rfl
      · simp only [Memory.get, ih]
        split <;> split <;> simp_all

theorem Memory.get_filter_ne (c : Config) (m : Memory) (a r : Nat) :
    Memory.get c (m.filter fun cell => cell.1 ≠ a) r = if r = a then resetByte c a else Memory.get c m r := by
  induction m with
  | nil => simp only [List.filter_nil, Memory.get]; split <;> simp_all
  | cons cell m ih =>
    obtain ⟨k, v⟩ := cell
    by_cases h : k = a
    · subst h
      rw [List.filter_cons_of_neg (by simp), ih]
      simp only [Memory.get]
      split <;> rfl
    · rw [List.filter_cons_of_pos (by simpa using h)]
      simp only [Memory.get, ih]
      split <;> split <;> simp_all

/-- Everything a write does to later reads, on any list of cells. -/
theorem Memory.get_put (c : Config) (m : Memory) (a r : Nat) (b : Byte) :
    Memory.get c (Memory.put c m a b) r = if r = a then b else Memory.get c m r := by
  unfold Memory.put
  split
  · rename_i h
    rw [Memory.get_filter_ne, h]
  · exact Memory.get_insert ..

/-! ### The canonical form -/

theorem Memory.mem_insert {m : Memory} {a : Nat} {b : Byte} {cell : Host.Cell} (h : cell ∈ Memory.insert m a b) :
    cell = (a, b) ∨ cell ∈ m := by
  induction m with
  | nil => simpa [Memory.insert] using h
  | cons hd m ih =>
    obtain ⟨k, v⟩ := hd
    unfold Memory.insert at h
    split at h
    · simpa using h
    · split at h
      · simp only [List.mem_cons] at h ⊢
        tauto
      · simp only [List.mem_cons] at h ⊢
        rcases h with h | h
        · exact .inr (.inl h)
        · exact (ih h).imp_right .inr

theorem Memory.sorted_insert {m : Memory} (a : Nat) (b : Byte) (h : (m.map Prod.fst).Pairwise (· < ·)) :
    ((Memory.insert m a b).map Prod.fst).Pairwise (· < ·) := by
  induction m with
  | nil => simp [Memory.insert]
  | cons hd m ih =>
    obtain ⟨k, v⟩ := hd
    simp only [List.map_cons, List.pairwise_cons] at h
    unfold Memory.insert
    split
    · rename_i hlt
      simp only [List.map_cons, List.pairwise_cons, List.mem_cons, forall_eq_or_imp]
      exact ⟨⟨hlt, fun x hx => hlt.trans (h.1 x hx)⟩, h⟩
    · split
      · subst_vars
        simpa only [List.map_cons, List.pairwise_cons] using h
      · simp only [List.map_cons, List.pairwise_cons]
        refine ⟨fun x hx => ?_, ih h.2⟩
        obtain ⟨cell, hc, rfl⟩ := List.mem_map.1 hx
        rcases Memory.mem_insert hc with rfl | hc
        · simp only; omega
        · exact h.1 _ (List.mem_map_of_mem hc)

/-- A write in range keeps the canonical form. -/
theorem Memory.wf_put {c : Config} {m : Memory} {a : Nat} (b : Byte) (h : Memory.wf c m) (ha : a ≤ memTop) :
    Memory.wf c (Memory.put c m a b) := by
  unfold Memory.put
  split
  · exact ⟨h.1.sublist (List.Sublist.map _ List.filter_sublist), fun cell hc => h.2 cell (List.mem_of_mem_filter hc)⟩
  · rename_i hb
    refine ⟨Memory.sorted_insert a b h.1, fun cell hc => ?_⟩
    rcases Memory.mem_insert hc with rfl | hc
    · exact ⟨ha, hb⟩
    · exact h.2 cell hc

theorem Memory.wf_nil (c : Config) : Memory.wf c [] := by simp [Memory.wf]

theorem State.memory_wf_resetWith (c : Config) : Memory.wf (State.resetWith c).cfg (State.resetWith c).mem :=
  Memory.wf_nil c

/-! ### The state's accesses -/

theorem State.readByte_congr {s t : State} (hm : t.mem = s.mem) (hc : t.cfg = s.cfg) (a : Nat) :
    t.readByte a = s.readByte a := by
  simp [State.readByte, hm, hc]

theorem State.readByte_writeByte (s : State) (a r : Nat) (b : Byte) :
    (s.writeByte a b).readByte r = if r = a then b else s.readByte r := Memory.get_put ..

/-- Everything a sequence of stored bytes does to later reads (R45). -/
theorem State.readByte_writeBytes (s : State) (a r : Nat) (bs : List Byte) :
    (s.writeBytes a bs).readByte r =
      if a ≤ r ∧ r < a + bs.length then bs.getD (r - a) 0 else s.readByte r := by
  induction bs generalizing s a with
  | nil => simp only [State.writeBytes, List.length_nil]; rw [if_neg (by omega)]
  | cons b bs ih =>
    simp only [State.writeBytes, ih, State.readByte_writeByte, List.length_cons]
    by_cases h1 : r = a
    · subst h1
      rw [if_neg (by omega), if_pos rfl, if_pos (by omega)]
      simp
    · by_cases h2 : a + 1 ≤ r ∧ r < a + 1 + bs.length
      · rw [if_pos h2, if_pos (by omega), show r - a = (r - (a + 1)) + 1 by omega]
        simp
      · rw [if_neg h2, if_neg h1, if_neg (by omega)]

/-- Stored bytes in range keep the canonical form. -/
theorem State.wf_writeBytes (s : State) (a : Nat) (bs : List Byte) (h : Memory.wf s.cfg s.mem)
    (hb : a + bs.length ≤ memTop + 1) : Memory.wf s.cfg (s.writeBytes a bs).mem := by
  induction bs generalizing s a with
  | nil => exact h
  | cons b bs ih =>
    simp only [List.length_cons] at hb
    exact ih (s.writeByte a b) (a + 1) (Memory.wf_put b h (by omega)) (by omega)

/-- The range check passes exactly when the access is empty or ends at or below 0xFFF (R43). -/
theorem accessFault_eq_none_iff (a n : Nat) : accessFault a n = none ↔ a + n ≤ memTop + 1 ∨ n = 0 := by
  unfold accessFault
  split
  · simp; omega
  · simp; omega

theorem accessFault_eq_some {a n : Nat} (hn : n ≠ 0) (h : memTop + 1 < a + n) :
    accessFault a n = some (BitVec.ofNat 17 (max a 0x1000)) := by
  unfold accessFault
  rw [if_pos ⟨hn, by omega⟩]

end Sys2Proof.Machine
end

