-- ==== Sys2Proof/Laws/Operands.lean ====
section
/-! SUPPORT. The operand forms: what each one gives, said once; reads of memory through updates that do not write it;
the words of the formats as numbers. -/

namespace Sys2Proof

theorem wordNNN_eq_ofNat (op : Nibble) (nnn : Addr12) :
    wordNNN op nnn = BitVec.ofNat 16 (op.toNat * 4096 + nnn.toNat) := by
  rw [← wordNNN_toNat, BitVec.ofNat_toNat, BitVec.setWidth_eq]

theorem wordXNN_eq_ofNat (op x : Nibble) (nn : Byte) :
    wordXNN op x nn = BitVec.ofNat 16 (op.toNat * 4096 + x.toNat * 256 + nn.toNat) := by
  rw [← wordXNN_toNat, BitVec.ofNat_toNat, BitVec.setWidth_eq]

theorem wordXYN_eq_ofNat (op x y n : Nibble) :
    wordXYN op x y n = BitVec.ofNat 16 (op.toNat * 4096 + x.toNat * 256 + y.toNat * 16 + n.toNat) := by
  rw [← wordXYN_toNat, BitVec.ofNat_toNat, BitVec.setWidth_eq]

namespace Machine

/-! ### Memory through other updates -/

@[simp] theorem State.readByte_advance (s : State) (a : Nat) : s.advance.readByte a = s.readByte a := rfl
@[simp] theorem State.readByte_setV (s : State) (x : Nibble) (b : Byte) (a : Nat) :
    (s.setV x b).readByte a = s.readByte a := rfl
@[simp] theorem State.readByte_tick (s : State) (a : Nat) : s.tick.readByte a = s.readByte a := rfl
@[simp] theorem State.readByte_withPc (s : State) (p : Word) (a : Nat) :
    State.readByte { s with pc := p } a = s.readByte a := rfl

/-! ### The bytes of MOVM and MOVBCD -/

theorem State.firstRegs_length (s : State) (x : Nibble) : (s.firstRegs x).length = x.toNat + 1 := by
  have := x.isLt
  simp [State.firstRegs]
  omega

theorem State.firstRegs_getD (s : State) (x r : Nibble) (h : r.toNat ≤ x.toNat) :
    (s.firstRegs x).getD r.toNat 0 = s.getV r := by
  have := r.isLt
  simp only [State.firstRegs, State.getV, List.getD_eq_getElem?_getD]
  rw [List.getElem?_take_of_lt (by omega)]
  simp [this]

theorem bcdDigits_length (v : Byte) : (bcdDigits v).length = 3 := rfl

/-! ### The lowest key -/

/-- Everything a search of a rising list of keys answers. -/
theorem lowestKeyFrom_spec (keys : Keys) (l : List Nat) (hl : ∀ k ∈ l, k < 16) (hs : l.Pairwise (· < ·)) :
    match lowestKeyFrom keys l with
    | none => ∀ k ∈ l, keys.getLsbD k = false
    | some k => k.toNat ∈ l ∧ keys.getLsbD k.toNat = true ∧ ∀ j ∈ l, j < k.toNat → keys.getLsbD j = false := by
  induction l with
  | nil => simp [lowestKeyFrom]
  | cons a l ih =>
    rw [List.pairwise_cons] at hs
    have ha := hl a (by simp)
    have ih := ih (fun k hk => hl k (by simp [hk])) hs.2
    by_cases hd : keys.getLsbD a = true
    · simp only [lowestKeyFrom, hd, if_true]
      rw [show (BitVec.ofNat 4 a).toNat = a by simp; omega]
      refine ⟨by simp, hd, fun j hj hlt => ?_⟩
      rcases List.mem_cons.1 hj with rfl | hj
      · omega
      · have := hs.1 j hj; omega
    · simp only [lowestKeyFrom, hd]
      have hd : keys.getLsbD a = false := by simpa using hd
      cases he : lowestKeyFrom keys l with
      | none => rw [he] at ih; simpa [hd] using ih
      | some k =>
        rw [he] at ih
        refine ⟨by simp [ih.1], ih.2.1, ?_⟩
        simpa [hd] using fun j hj => ih.2.2 j hj

theorem lowestKey_eq_none (keys : Keys) (h : lowestKey keys = none) : keys = 0 := by
  have := lowestKeyFrom_spec keys (List.range 16) (by simp) List.pairwise_lt_range
  rw [show lowestKeyFrom keys (List.range 16) = none from h] at this
  refine BitVec.eq_of_getLsbD_eq fun i hi => ?_
  rw [this i (by simpa using hi)]
  simp

theorem lowestKey_eq_some (keys : Keys) (k : Nibble) (h : lowestKey keys = some k) :
    keys.getLsbD k.toNat = true ∧ ∀ j, j < k.toNat → keys.getLsbD j = false := by
  have := lowestKeyFrom_spec keys (List.range 16) (by simp) List.pairwise_lt_range
  rw [show lowestKeyFrom keys (List.range 16) = some k from h] at this
  have hk := k.isLt
  exact ⟨this.2.1, fun j hj => this.2.2 j (by simp; omega) hj⟩

/-! ### The position of a sprite -/

/-- A sprite's position counts modulo the display (R171). -/
theorem spriteCovers_mod (x0 y0 : Nat) (rows : List Byte) (r : Fin 32) (c : Fin 64) :
    spriteCovers (x0 % 64) (y0 % 32) rows r c = spriteCovers x0 y0 rows r c := by
  simp [spriteCovers]

end Machine

end Sys2Proof
end

