-- ==== Sys2Proof/Laws/PerInstr.lean ====
section
/-! SUPPORT. Statements made per instruction: family `RoundTrip`, decoding the encoding of an instruction gives the
instruction back (R66, R69). -/

namespace Sys2Proof.Laws.RoundTrip

/-- No bit of the instruction's encoding is dropped. -/
def Statement (i : Instr) : Prop := decode (encode i) = .ok i

end Sys2Proof.Laws.RoundTrip

namespace Sys2Proof.Laws

theorem RoundTrip.cls : RoundTrip.Statement .cls := rfl
theorem RoundTrip.ret : RoundTrip.Statement .ret := rfl

theorem RoundTrip.jump (nnn : Addr12) : RoundTrip.Statement (.jump nnn) :=
  decode_of_dispatch (by simp [encode, dispatch, decodeFields_wordNNN])
theorem RoundTrip.call (nnn : Addr12) : RoundTrip.Statement (.call nnn) :=
  decode_of_dispatch (by simp [encode, dispatch, decodeFields_wordNNN])
theorem RoundTrip.mviI (nnn : Addr12) : RoundTrip.Statement (.mviI nnn) :=
  decode_of_dispatch (by simp [encode, dispatch, decodeFields_wordNNN])
theorem RoundTrip.jumpV0 (nnn : Addr12) : RoundTrip.Statement (.jumpV0 nnn) :=
  decode_of_dispatch (by simp [encode, dispatch, decodeFields_wordNNN])
theorem RoundTrip.skipEqImm (x : Nibble) (nn : Byte) : RoundTrip.Statement (.skipEqImm x nn) :=
  decode_of_dispatch (by simp [encode, dispatch, decodeFields_wordXNN])
theorem RoundTrip.skipNeImm (x : Nibble) (nn : Byte) : RoundTrip.Statement (.skipNeImm x nn) :=
  decode_of_dispatch (by simp [encode, dispatch, decodeFields_wordXNN])
theorem RoundTrip.mvi (x : Nibble) (nn : Byte) : RoundTrip.Statement (.mvi x nn) :=
  decode_of_dispatch (by simp [encode, dispatch, decodeFields_wordXNN])
theorem RoundTrip.adi (x : Nibble) (nn : Byte) : RoundTrip.Statement (.adi x nn) :=
  decode_of_dispatch (by simp [encode, dispatch, decodeFields_wordXNN])
theorem RoundTrip.rndmsk (x : Nibble) (nn : Byte) : RoundTrip.Statement (.rndmsk x nn) :=
  decode_of_dispatch (by simp [encode, dispatch, decodeFields_wordXNN])
theorem RoundTrip.skipEqReg (x y : Nibble) : RoundTrip.Statement (.skipEqReg x y) :=
  decode_of_dispatch (by simp [encode, dispatch, decodeFields_wordXYN])
theorem RoundTrip.mov (x y : Nibble) : RoundTrip.Statement (.mov x y) :=
  decode_of_dispatch (by simp [encode, dispatch, dispatchAlu, decodeFields_wordXYN])
theorem RoundTrip.or (x y : Nibble) : RoundTrip.Statement (.or x y) :=
  decode_of_dispatch (by simp [encode, dispatch, dispatchAlu, decodeFields_wordXYN])
theorem RoundTrip.and (x y : Nibble) : RoundTrip.Statement (.and x y) :=
  decode_of_dispatch (by simp [encode, dispatch, dispatchAlu, decodeFields_wordXYN])
theorem RoundTrip.xor (x y : Nibble) : RoundTrip.Statement (.xor x y) :=
  decode_of_dispatch (by simp [encode, dispatch, dispatchAlu, decodeFields_wordXYN])
theorem RoundTrip.add (x y : Nibble) : RoundTrip.Statement (.add x y) :=
  decode_of_dispatch (by simp [encode, dispatch, dispatchAlu, decodeFields_wordXYN])
theorem RoundTrip.sub (x y : Nibble) : RoundTrip.Statement (.sub x y) :=
  decode_of_dispatch (by simp [encode, dispatch, dispatchAlu, decodeFields_wordXYN])
theorem RoundTrip.shr (x y : Nibble) : RoundTrip.Statement (.shr x y) :=
  decode_of_dispatch (by simp [encode, dispatch, dispatchAlu, decodeFields_wordXYN])
theorem RoundTrip.subn (x y : Nibble) : RoundTrip.Statement (.subn x y) :=
  decode_of_dispatch (by simp [encode, dispatch, dispatchAlu, decodeFields_wordXYN])
theorem RoundTrip.shl (x y : Nibble) : RoundTrip.Statement (.shl x y) :=
  decode_of_dispatch (by simp [encode, dispatch, dispatchAlu, decodeFields_wordXYN])
theorem RoundTrip.skipNeReg (x y : Nibble) : RoundTrip.Statement (.skipNeReg x y) :=
  decode_of_dispatch (by simp [encode, dispatch, decodeFields_wordXYN])
theorem RoundTrip.draw (x y n : Nibble) : RoundTrip.Statement (.draw x y n) :=
  decode_of_dispatch (by simp [encode, dispatch, decodeFields_wordXYN])
theorem RoundTrip.skipKeyY (x : Nibble) : RoundTrip.Statement (.skipKeyY x) :=
  decode_of_dispatch (by simp [encode, dispatch, decodeFields_wordXNN])
theorem RoundTrip.skipKeyN (x : Nibble) : RoundTrip.Statement (.skipKeyN x) :=
  decode_of_dispatch (by simp [encode, dispatch, decodeFields_wordXNN])
theorem RoundTrip.movVxDt (x : Nibble) : RoundTrip.Statement (.movVxDt x) :=
  decode_of_dispatch (by simp [encode, dispatch, dispatchMisc, decodeFields_wordXNN])
theorem RoundTrip.key (x : Nibble) : RoundTrip.Statement (.key x) :=
  decode_of_dispatch (by simp [encode, dispatch, dispatchMisc, decodeFields_wordXNN])
theorem RoundTrip.movDtVx (x : Nibble) : RoundTrip.Statement (.movDtVx x) :=
  decode_of_dispatch (by simp [encode, dispatch, dispatchMisc, decodeFields_wordXNN])
theorem RoundTrip.movStVx (x : Nibble) : RoundTrip.Statement (.movStVx x) :=
  decode_of_dispatch (by simp [encode, dispatch, dispatchMisc, decodeFields_wordXNN])
theorem RoundTrip.adiI (x : Nibble) : RoundTrip.Statement (.adiI x) :=
  decode_of_dispatch (by simp [encode, dispatch, dispatchMisc, decodeFields_wordXNN])
theorem RoundTrip.spriteChar (x : Nibble) : RoundTrip.Statement (.spriteChar x) :=
  decode_of_dispatch (by simp [encode, dispatch, dispatchMisc, decodeFields_wordXNN])
theorem RoundTrip.movBcd (x : Nibble) : RoundTrip.Statement (.movBcd x) :=
  decode_of_dispatch (by simp [encode, dispatch, dispatchMisc, decodeFields_wordXNN])
theorem RoundTrip.movmStore (x : Nibble) : RoundTrip.Statement (.movmStore x) :=
  decode_of_dispatch (by simp [encode, dispatch, dispatchMisc, decodeFields_wordXNN])
theorem RoundTrip.movmLoad (x : Nibble) : RoundTrip.Statement (.movmLoad x) :=
  decode_of_dispatch (by simp [encode, dispatch, dispatchMisc, decodeFields_wordXNN])

end Sys2Proof.Laws
end

