-- ==== Sys2Proof/Laws/Step.lean ====
section
/-! SUPPORT. What the shared guards, the fetch, a step and a launch can do, said once each. -/

namespace Sys2Proof.Machine

/-! ### Guards -/

theorem State.guardAccess_next {s : State} {i : Instr} {a n : Nat} {done : State}
    (h : a + n ≤ memTop + 1 ∨ n = 0) : s.guardAccess i a n done = .next done := by
  rw [State.guardAccess, (accessFault_eq_none_iff a n).2 h]

theorem State.guardAccess_fault {s : State} {i : Instr} {a n : Nat} {done : State} (hn : n ≠ 0)
    (h : memTop + 1 < a + n) : s.guardAccess i a n done =
      .fault (.indexOutOfRange (encode i) s.pc (BitVec.ofNat 17 (max a 0x1000))) := by
  rw [State.guardAccess, accessFault_eq_some hn h]
  rfl

/-- Everything a guarded access can do when it goes on. -/
theorem State.guardAccess_eq_next {s t done : State} {i : Instr} {a n : Nat}
    (h : s.guardAccess i a n done = .next t) : t = done ∧ (a + n ≤ memTop + 1 ∨ n = 0) := by
  by_cases hr : a + n ≤ memTop + 1 ∨ n = 0
  · rw [State.guardAccess_next hr] at h
    exact ⟨(Host.Outcome.next.inj h).symm, hr⟩
  · rw [State.guardAccess_fault (by omega) (by omega)] at h
    exact absurd h (by simp)

theorem State.guardIndex_next {s : State} {i : Instr} {k : Byte} {done : State} (h : k.toNat ≤ 15) :
    s.guardIndex i k done = .next done := by
  rw [State.guardIndex, if_neg (by omega)]

theorem State.guardIndex_fault {s : State} {i : Instr} {k : Byte} {done : State} (h : 15 < k.toNat) :
    s.guardIndex i k done = .fault (.indexOutOfRange (encode i) s.pc (BitVec.ofNat 17 k.toNat)) := by
  rw [State.guardIndex, if_pos h, State.raiseIndex, raise]

/-- Everything a guarded index can do when it goes on. -/
theorem State.guardIndex_eq_next {s t done : State} {i : Instr} {k : Byte}
    (h : s.guardIndex i k done = .next t) : t = done ∧ k.toNat ≤ 15 := by
  by_cases hr : k.toNat ≤ 15
  · rw [State.guardIndex_next hr] at h
    exact ⟨(Host.Outcome.next.inj h).symm, hr⟩
  · rw [State.guardIndex_fault (by omega)] at h
    exact absurd h (by simp)

/-- A push that succeeds found a free slot. -/
theorem State.push_eq_some_iff {s t : State} {a : Word} (h : s.push a = some t) : ∃ lt : s.sp.val < 16,
    t = { s with stk := s.stk.set s.sp.val a lt, sp := ⟨s.sp.val + 1, Nat.succ_lt_succ lt⟩ } := by
  unfold State.push at h
  split at h
  · exact ⟨‹_›, (Option.some.inj h).symm⟩
  · exact absurd h (by simp)

/-- A pop that succeeds found a live slot. -/
theorem State.pop_eq_some_iff {s t : State} {a : Word} (h : s.pop = some (a, t)) :
    ∃ k : Fin 16, s.sp.val = k.val + 1 ∧ a = s.stk[k] ∧ t = { s with sp := ⟨k.val, Nat.lt_succ_of_lt k.isLt⟩ } := by
  have := s.sp.isLt
  by_cases h0 : s.sp.val = 0
  · rw [(State.pop_eq_none_iff s).2 h0] at h
    exact absurd h (by simp)
  · rw [State.pop_eq_some s h0] at h
    obtain ⟨rfl, rfl⟩ := Prod.mk.inj (Option.some.inj h)
    exact ⟨⟨s.sp.val - 1, by omega⟩, by simp only; omega, rfl, rfl⟩

/-- Two states that agree field by field outside the parts named. -/
theorem State.changesOnly_of_fields {s t : State} (parts : List Part)
    (regs : Part.regs ∉ parts → t.v = s.v) (index : Part.index ∉ parts → t.i = s.i)
    (pc : Part.pc ∉ parts → t.pc = s.pc) (stack : Part.stack ∉ parts → t.sp = s.sp ∧ t.stk = s.stk)
    (delay : Part.delayTimer ∉ parts → t.dt = s.dt) (sound : Part.soundTimer ∉ parts → t.st = s.st)
    (memory : Part.memory ∉ parts → t.mem = s.mem) (display : Part.display ∉ parts → t.fb = s.fb)
    (cfg : t.cfg = s.cfg) (pending : t.pending = s.pending) (drawn : t.drawn = s.drawn) : s.changesOnly t parts := by
  refine ⟨fun p hp => ?_, cfg, pending, drawn⟩
  cases p with
  | regs => exact fun r => State.getV_congr (regs hp) r
  | index => exact index hp
  | pc => exact pc hp
  | stack => exact ⟨(stack hp).1, fun k => by rw [(stack hp).2]⟩
  | delayTimer => exact delay hp
  | soundTimer => exact sound hp
  | memory => exact fun a => State.readByte_congr (memory hp) cfg a
  | display => exact fun r c => by rw [display hp]

/-! ### Fetch and step -/

theorem State.fetch_ok {s : State} (h : s.pc.toNat ≤ 0xFFE) :
    s.fetch = .ok (wordOfBytes (s.readByte s.pc.toNat) (s.readByte (s.pc.toNat + 1))) := by
  rw [State.fetch, (accessFault_eq_none_iff _ _).2 (.inl (by simp only [memTop]; omega))]

theorem State.fetch_error {s : State} (h : 0xFFE < s.pc.toNat) :
    s.fetch = .error (.indexOutOfRange 0x0000 s.pc (BitVec.ofNat 17 (max s.pc.toNat 0x1000))) := by
  rw [State.fetch, accessFault_eq_some (by omega) (by simp only [memTop]; omega)]

/-- A fetch that succeeds was in range. -/
theorem State.pc_le_of_fetch {s : State} {w : Word} (h : s.fetch = .ok w) : s.pc.toNat ≤ 0xFFE := by
  by_contra hc
  rw [State.fetch_error (by omega)] at h
  exact absurd h (by simp)

theorem step_of_decode {s : State} {w : Word} {i : Instr} (hf : s.fetch = .ok w) (hd : decode w = .ok i) :
    step s = finishStep (exec i s) := by
  rw [step, hf]
  simp only [hd]

theorem step_of_fetch_error {s : State} {f : Fault} (hf : s.fetch = .error f) : step s = .fault f := by
  rw [step, hf]
  rfl

theorem step_of_illegal {s : State} {w : Word} {e : DecodeError} (hf : s.fetch = .ok w) (hd : decode w = .error e) :
    step s = .fault (.illegalOpcode w s.pc) := by
  rw [step, hf]
  simp only [hd, State.raiseIllegal, raise]

/-- A word either decodes or is rejected by its name. -/
theorem decode_cases (w : Word) : (∃ i, decode w = .ok i) ∨ decode w = .error (.illegalOpcode w) := by
  unfold decode
  split
  · exact .inl ⟨_, rfl⟩
  · exact .inr rfl

/-- Everything a step that goes on has done: it fetched a word, decoded it, executed it, ticked, and used up its
input (R220). -/
theorem step_eq_next {s t : State} (h : step s = .next t) :
    ∃ w i u, s.fetch = .ok w ∧ decode w = .ok i ∧ exec i s = .next u ∧ t = u.tick.takeInput := by
  cases hf : s.fetch with
  | error f => rw [step_of_fetch_error hf] at h; exact absurd h (by simp)
  | ok w =>
    rcases decode_cases w with ⟨i, hd⟩ | hd
    · rw [step_of_decode hf hd] at h
      cases he : exec i s with
      | next u =>
        rw [he] at h
        exact ⟨w, i, u, rfl, hd, he, (Host.Outcome.next.inj h).symm⟩
      | fault f => rw [he] at h; exact absurd h (by simp [finishStep])
      | refused r => rw [he] at h; exact absurd h (by simp [finishStep])
    · rw [step_of_illegal hf hd] at h
      exact absurd h (by simp)

theorem tickTimer_toNat (t : Byte) : (tickTimer t).toNat = t.toNat - 1 := by
  have := t.isLt
  by_cases h : 0 < t.toNat
  · rw [tickTimer, if_pos (show t > 0 from h), BitVec.toNat_sub, show (1 : Byte).toNat = 1 from rfl]
    omega
  · rw [tickTimer, if_neg (show ¬ t > 0 from h), show (0 : Byte).toNat = 0 from rfl]
    omega

/-! ### A step with its inputs given -/

@[simp] theorem State.withInput_pc (s : State) (keys : Keys) (rnd : Byte) : (s.withInput keys rnd).pc = s.pc := rfl
@[simp] theorem State.withInput_fetch (s : State) (keys : Keys) (rnd : Byte) :
    (s.withInput keys rnd).fetch = s.fetch := rfl
@[simp] theorem State.withInput_keys (s : State) (keys : Keys) (rnd : Byte) : (s.withInput keys rnd).keys = keys := rfl
@[simp] theorem State.withInput_rnd (s : State) (keys : Keys) (rnd : Byte) : (s.withInput keys rnd).rnd = rnd := rfl

/-- Whether an instruction faults, and how, does not depend on the inputs (R261). -/
theorem instrFault_withInput (i : Instr) (s : State) (keys : Keys) (rnd : Byte) :
    instrFault i (s.withInput keys rnd) = instrFault i s := by
  cases i <;> rfl

/-- The end of a step leaves the fault outputs of its instruction as they are. -/
theorem stepPorts_finishStep (r : Result) : stepPorts (finishStep r) = stepPorts r := by
  cases r <;> rfl

/-! ### A run -/

/-- Every request of the host is answered (R301). -/
theorem runWith_length (reqs : List StepInput) (s : State) : (runWith reqs s).1.length = reqs.length := by
  induction reqs generalizing s with
  | nil => rfl
  | cons k rest ih => simp [runWith, ih]

/-- A run goes on from wherever it stood (R301). -/
theorem runWith_append (reqs more : List StepInput) (s : State) :
    runWith (reqs ++ more) s =
      ((runWith reqs s).1 ++ (runWith more (runWith reqs s).2).1, (runWith more (runWith reqs s).2).2) := by
  induction reqs generalizing s with
  | nil => rfl
  | cons k rest ih => simp [runWith, ih]

/-! ### Launch -/

/-- Everything the load port does: it stores the bytes, or a byte would pass 0xFFF (R213). -/
theorem loadBytes_eq (s : State) (p : Nat) (bs : List Byte) (hp : p ≤ memTop + 1) :
    loadBytes s p bs = if p + bs.length ≤ memTop + 1 then some (s.writeBytes p bs) else none := by
  induction bs generalizing s p with
  | nil => simp [loadBytes, State.writeBytes, hp]
  | cons b bs ih =>
    rw [loadBytes]
    split
    · rename_i h
      rw [if_neg (by simp only [List.length_cons]; omega)]
    · rename_i h
      rw [ih _ _ (by omega), State.writeBytes, List.length_cons]
      simp only [show p + 1 + bs.length = p + (bs.length + 1) by omega]

theorem paddedRom_length (rom : List Byte) : (paddedRom rom).length = paddedLength rom := by
  unfold paddedRom paddedLength
  split <;> simp <;> omega

/-- Everything a launch can do (R294, R303). -/
theorem launch_eq (c : Config) (rom : List Byte) :
    launch c rom =
      if c.wf = true then
        if romFits rom = true then .next ((State.resetWith c).writeBytes 0x200 (paddedRom rom))
        else .refused .romLoadError
      else .refused .configIllegal := by
  have hl : loadRom (State.resetWith c) rom =
      if romFits rom = true then some ((State.resetWith c).writeBytes 0x200 (paddedRom rom)) else none := by
    rw [loadRom, loadBytes_eq _ _ _ (by simp [memTop]), paddedRom_length]
    have : (0x200 + paddedLength rom ≤ memTop + 1) ↔ romFits rom = true := by
      simp only [romFits, memTop, decide_eq_true_eq]; omega
    simp only [this]
  rw [launch, hl]
  split
  · split
    · rename_i h
      split at h <;> simp_all
    · rename_i h
      split at h <;> simp_all
  · rfl

end Sys2Proof.Machine
end

