-- ==== Sys2Proof/Tests/Slice0.lean ====
section
/-! SUPPORT. The model's own tests. Expected results are taken from spec/95_test_vectors.md (its section is named) or
written out by hand from the rule named; words are written from the patterns of R66. -/

namespace Sys2Proof.Tests

open Sys2Proof.Machine

/-! ### Decoding: one word per constructor, from the pattern column of R66 -/

theorem test_decode_cls : decode 0b0000_0000_1110_0000 = .ok .cls := by decide
theorem test_decode_ret : decode 0b0000_0000_1110_1110 = .ok .ret := by decide
theorem test_decode_jump : decode 0b0001_0010_0010_1000 = .ok (.jump 0x228) := by decide
theorem test_decode_call : decode 0b0010_1010_1011_1100 = .ok (.call 0xABC) := by decide
theorem test_decode_skipEqImm : decode 0b0011_0011_0010_1010 = .ok (.skipEqImm 3 0x2A) := by decide
theorem test_decode_skipNeImm : decode 0b0100_1111_0000_0001 = .ok (.skipNeImm 15 0x01) := by decide
theorem test_decode_skipEqReg : decode 0b0101_0001_0010_0000 = .ok (.skipEqReg 1 2) := by decide
theorem test_decode_mvi : decode 0b0110_0001_1100_0011 = .ok (.mvi 1 0xC3) := by decide
theorem test_decode_adi : decode 0b0111_0000_0000_0011 = .ok (.adi 0 0x03) := by decide
theorem test_decode_mov : decode 0b1000_0001_0010_0000 = .ok (.mov 1 2) := by decide
theorem test_decode_or : decode 0b1000_0001_0010_0001 = .ok (.or 1 2) := by decide
theorem test_decode_and : decode 0b1000_0001_0010_0010 = .ok (.and 1 2) := by decide
theorem test_decode_xor : decode 0b1000_0001_0010_0011 = .ok (.xor 1 2) := by decide
theorem test_decode_add : decode 0b1000_1010_1011_0100 = .ok (.add 10 11) := by decide
theorem test_decode_sub : decode 0b1000_0001_0010_0101 = .ok (.sub 1 2) := by decide
theorem test_decode_shr : decode 0b1000_0001_0010_0110 = .ok (.shr 1 2) := by decide
theorem test_decode_subn : decode 0b1000_0001_0010_0111 = .ok (.subn 1 2) := by decide
theorem test_decode_shl : decode 0b1000_0001_0010_1110 = .ok (.shl 1 2) := by decide
theorem test_decode_skipNeReg : decode 0b1001_0001_0010_0000 = .ok (.skipNeReg 1 2) := by decide
theorem test_decode_mviI : decode 0b1010_0010_0010_1010 = .ok (.mviI 0x22A) := by decide
theorem test_decode_jumpV0 : decode 0b1011_0011_0000_0000 = .ok (.jumpV0 0x300) := by decide
theorem test_decode_rndmsk : decode 0b1100_0011_0000_1111 = .ok (.rndmsk 3 0x0F) := by decide
theorem test_decode_draw : decode 0b1101_0011_0100_0010 = .ok (.draw 3 4 2) := by decide
theorem test_decode_skipKeyY : decode 0b1110_0001_1001_1110 = .ok (.skipKeyY 1) := by decide
theorem test_decode_skipKeyN : decode 0b1110_0001_1010_0001 = .ok (.skipKeyN 1) := by decide
theorem test_decode_movVxDt : decode 0b1111_0001_0000_0111 = .ok (.movVxDt 1) := by decide
theorem test_decode_key : decode 0b1111_0101_0000_1010 = .ok (.key 5) := by decide
theorem test_decode_movDtVx : decode 0b1111_1010_0001_0101 = .ok (.movDtVx 10) := by decide
theorem test_decode_movStVx : decode 0b1111_0001_0001_1000 = .ok (.movStVx 1) := by decide
theorem test_decode_adiI : decode 0b1111_0010_0001_1110 = .ok (.adiI 2) := by decide
theorem test_decode_spriteChar : decode 0b1111_0100_0010_1001 = .ok (.spriteChar 4) := by decide
theorem test_decode_movBcd : decode 0b1111_0000_0011_0011 = .ok (.movBcd 0) := by decide
theorem test_decode_movmStore : decode 0b1111_0010_0101_0101 = .ok (.movmStore 2) := by decide
theorem test_decode_movmLoad : decode 0b1111_0010_0110_0101 = .ok (.movmLoad 2) := by decide

/-- The refused neighbours of 95 section 2.2. -/
theorem test_refused_neighbours :
    [0x00E1, 0x00DF, 0x01E0, 0x0000, 0x00F0, 0x00EF, 0x00ED, 0x0FEE, 0x0200, 0x5121, 0x512F, 0x9121, 0x912E, 0x8128,
      0x812B, 0x812D, 0x812F, 0xE19D, 0xE19F, 0xE100, 0xE1A0, 0xE1A2, 0xF106, 0xF108, 0xF100, 0xF10B, 0xF114, 0xF117,
      0xF119, 0xF11F, 0xF128, 0xF130, 0xF132, 0xF154, 0xF175, 0xF166, 0xF1FF].all
      (fun w => decide (decode w = .error (.illegalOpcode w))) = true := by decide

/-- Bytes are read high byte first, and the rest is handed back (R44, R60). -/
theorem test_decode_bytes : decodeBytes [0x60, 0x05, 0x70] = .ok (.mvi 0 0x05, [0x70]) := by decide

/-- A single byte is no instruction (R60). -/
theorem test_decode_truncated : decodeBytes [0x60] = .error .truncated := by decide

/-- The host's table word of CLS, and a word that is refused. -/
theorem test_decode_table_word : decodeTableWord 16 0x00E0 = some .cls ∧ decodeTableWord 16 0 = none := by decide

/-! ### What a launch refuses -/

/-- `FONT_BASE` + 80 above 0x200 (R3); 0x1B0 is the highest that fits. -/
theorem test_font_base_refused :
    ({ Config.standard with fontBase := 0x1B1 } : Config).fontFits = false ∧
      ({ Config.standard with fontBase := 0x1B0 } : Config).fontFits = true ∧
      launch { Config.standard with fontBase := 0x1B1 } [] = .refused .configIllegal := ⟨by decide, by decide, rfl⟩

/-- A font of 79 bytes. -/
theorem test_font_length_refused :
    ({ Config.standard with fontData := customaryFont.tail } : Config).fontWhole = false ∧
      launch { Config.standard with fontData := customaryFont.tail } [] = .refused .configIllegal := ⟨by decide, rfl⟩

/-- R294: 3584 and 3583 bytes fit, 3585 do not. -/
theorem test_rom_length : romFits (List.replicate 3584 0) = true ∧ romFits (List.replicate 3583 0) = true ∧
    romFits (List.replicate 3585 0) = false := by
  simp only [romFits, paddedLength, List.length_replicate]; decide

/-! ### One step -/

/-- A state with a word placed at `PC`, no key down and `RND` = 0 (95, opening paragraph). -/
def placed (w : Nat) (s : State) : State := (s.withFetchWord 16 w).withInput 0 0

/-- The next step succeeds, and the state after it has the property. -/
def gives (s : State) (p : State → Bool) : Bool :=
  match step s with
  | .next t => p t
  | .fault _ => false
  | .refused _ => false

/-- The next step faults with this record. -/
def faults (s : State) (f : Fault) : Bool :=
  match step s with
  | .next _ => false
  | .fault g => g == f
  | .refused _ => false

/-- The reset state with two registers set (95 section 2.5: VF = 0xAA before). -/
def two (a b : Byte) : State := ((State.reset.setV 15 0xAA).setV 1 a).setV 2 b

/-- The same with `SHIFT_QUIRK` = false. -/
def legacy (a b : Byte) : State := { two a b with cfg := { Config.standard with shiftQuirk := false } }

/-- `V[1]` and VF afterwards. -/
def v1f (a f : Byte) (t : State) : Bool := t.getV 1 == a && t.getV 15 == f

-- 95 section 2.3
theorem test_fetch_top : gives (placed 0x6007 { State.reset with pc := 0x0FFE })
    (fun t => t.getV 0 == 7 && t.pc == 0x1000) = true := by decide
theorem test_fetch_half : faults { State.reset with pc := 0x0FFF } (.indexOutOfRange 0 0x0FFF 0x1000) = true := by decide
theorem test_fetch_low : faults { State.reset with pc := 0x0000 } (.illegalOpcode 0 0) = true := by decide

-- 95 section 2.4
theorem test_jump : gives (placed 0x1FFF State.reset) (fun t => t.pc == 0x0FFF) = true := by decide
theorem test_call_last_slot : gives (placed 0x2200 { State.reset with pc := 0x0ABC, sp := 15 })
    (fun t => t.stk[15] == 0x0ABE && t.sp.val == 16 && t.pc == 0x0200) = true := by decide
theorem test_call_full : faults (placed 0x2200 { State.reset with pc := 0x0ABC, sp := 16 })
    (.stackOverflow 0x2200 0x0ABC) = true := by decide
theorem test_ret : gives (placed 0x00EE { State.reset with sp := 2, stk := State.reset.stk.set 1 0x0402 })
    (fun t => t.pc == 0x0402 && t.sp.val == 1 && t.stk[1] == 0x0402) = true := by decide
theorem test_ret_empty : faults (placed 0x00EE { State.reset with pc := 0x0300 })
    (.stackUnderflow 0x00EE 0x0300) = true := by decide
theorem test_skipEqImm : gives (placed 0x332A (State.reset.setV 3 0x2A)) (fun t => t.pc == 0x0204) = true := by decide
theorem test_skipNeImm : gives (placed 0x432A (State.reset.setV 3 0x2A)) (fun t => t.pc == 0x0202) = true := by decide
theorem test_skipEqReg : gives (placed 0x5120 (two 0 255)) (fun t => t.pc == 0x0202) = true := by decide
theorem test_skipNeReg : gives (placed 0x9120 (two 0 255)) (fun t => t.pc == 0x0204) = true := by decide
theorem test_jumpV0 : gives (placed 0xBFFF (State.reset.setV 0 2)) (fun t => t.pc == 0x1001) = true := by decide
theorem test_jumpV0_not_vx : gives (placed 0xBF00 ((State.reset.setV 0 0xFF).setV 15 7))
    (fun t => t.pc == 0x0FFF) = true := by decide

-- 95 section 2.5
theorem test_mvi : gives (placed 0x61C3 (two 0 0)) (v1f 0xC3 0xAA) = true := by decide
theorem test_adi : gives (placed 0x7101 (two 0xFF 0)) (v1f 0x00 0xAA) = true := by decide
theorem test_mov : gives (placed 0x8120 (two 0x00 0x7C)) (v1f 0x7C 0xAA) = true := by decide
theorem test_or : gives (placed 0x8121 (two 0xF0 0x0F)) (v1f 0xFF 0xAA) = true := by decide
theorem test_and : gives (placed 0x8122 (two 0xF3 0x3C)) (v1f 0x30 0xAA) = true := by decide
theorem test_xor : gives (placed 0x8123 (two 0xFF 0x0F)) (v1f 0xF0 0xAA) = true := by decide
theorem test_add_carry : gives (placed 0x8124 (two 0xFF 0x01)) (v1f 0x00 0x01) = true := by decide
theorem test_add_vf : gives (placed 0x8F14 ((two 0x20 0).setV 15 0xF0)) (v1f 0x20 0x01) = true := by decide
theorem test_sub_borrow : gives (placed 0x8125 (two 0x00 0x01)) (v1f 0xFF 0x00) = true := by decide
theorem test_sub_equal : gives (placed 0x8125 (two 0x07 0x07)) (v1f 0x00 0x01) = true := by decide
theorem test_subn_borrow : gives (placed 0x8127 (two 0x05 0x03)) (v1f 0xFE 0x00) = true := by decide
theorem test_shr_modern : gives (placed 0x8126 (two 0x05 0x08)) (v1f 0x02 0x01) = true := by decide
theorem test_shr_legacy : gives (placed 0x8126 (legacy 0x05 0x08)) (v1f 0x04 0x00) = true := by decide
theorem test_shl_modern : gives (placed 0x812E (two 0x81 0x40)) (v1f 0x02 0x01) = true := by decide
theorem test_shl_legacy : gives (placed 0x812E (legacy 0x00 0xC0)) (v1f 0x80 0x01) = true := by decide
theorem test_rndmsk : gives ((State.reset.withFetchWord 16 0xC30F).withInput 0 0xA7) (fun t => t.getV 3 == 0x07) = true := by
  decide

-- 95 section 2.6
theorem test_mviI : gives (placed 0xAFFF State.reset) (fun t => t.i == 0x0FFF) = true := by decide
theorem test_adiI_wraps : gives (placed 0xF21E ({ State.reset with i := 0xFFFF }.setV 2 1))
    (fun t => t.i == 0 && t.getV 15 == 0) = true := by decide
theorem test_spriteChar : gives (placed 0xF429 (State.reset.setV 4 0x0A)) (fun t => t.i == 0x0082) = true := by decide
theorem test_spriteChar_above : faults (placed 0xF429 (State.reset.setV 4 0x10))
    (.indexOutOfRange 0xF429 0x0200 0x10) = true := by decide
theorem test_movBcd : gives (placed 0xF033 ({ State.reset with i := 0xFFD }.setV 0 123))
    (fun t => t.readByte 0xFFD == 1 && t.readByte 0xFFE == 2 && t.readByte 0xFFF == 3) = true := by decide
theorem test_movBcd_above : faults (placed 0xF033 ({ State.reset with i := 0x2000 }.setV 0 123))
    (.indexOutOfRange 0xF033 0x0200 0x2000) = true := by decide
theorem test_movmStore : gives
    (placed 0xF255 ((({ State.reset with i := 0x400 }.setV 0 0x11).setV 1 0x22).setV 2 0x33))
    (fun t => t.readBytes 0x400 4 == [0x11, 0x22, 0x33, 0] && t.i == 0x400) = true := by decide
theorem test_movmStore_above : faults (placed 0xF155 { State.reset with i := 0xFFF })
    (.indexOutOfRange 0xF155 0x0200 0x1000) = true := by decide
theorem test_movmLoad_glyph : gives (placed 0xF465 ({ State.reset with i := 0x050 }.setV 5 9))
    (fun t => t.getV 0 == 0xF0 && t.getV 3 == 0x90 && t.getV 4 == 0xF0 && t.getV 5 == 9) = true := by decide

/-- Writing the byte an unlisted address reads as takes the cell off the list: equal memories are equal data. -/
theorem test_memory_canonical : ((State.reset.writeByte 0x400 7).writeByte 0x400 0).mem = [] ∧
    ((State.reset.writeByte 0x050 7).writeByte 0x050 0xF0).mem = [] ∧
    (State.reset.writeByte 0x050 0).mem = [(0x050, 0)] := by decide

-- 95 section 2.7
theorem test_cls : gives (placed 0x00E0 { State.reset with fb := State.reset.fb.toggle 31 63 })
    (fun t => t.fb == Display.clear) = true := by decide
theorem test_draw_wraps : gives (placed 0xD011 (({ State.reset with i := 0x400 }.writeByte 0x400 0xFF).setV 0 60))
    (fun t => t.fb.cell 0 63 && t.fb.cell 0 60 && !t.fb.cell 0 59 && t.fb.cell 0 3 && !t.fb.cell 0 4 &&
      t.getV 15 == 0) = true := by decide
theorem test_draw_collides : gives
    (placed 0xD011 ({ State.reset with i := 0x400, fb := State.reset.fb.toggle 0 0 }.writeByte 0x400 0xC0))
    (fun t => !t.fb.cell 0 0 && t.fb.cell 0 1 && t.getV 15 == 1) = true := by decide
theorem test_skipKeyY : gives (((State.reset.setV 2 5).withFetchWord 16 0xE29E).withInput 0xFFDF 0)
    (fun t => t.pc == 0x0202) = true := by decide
theorem test_skipKeyN : gives (((State.reset.setV 2 5).withFetchWord 16 0xE2A1).withInput 0xFFDF 0)
    (fun t => t.pc == 0x0204) = true := by decide
theorem test_key_spins : gives (placed 0xF10A { State.reset with dt := 5 })
    (fun t => t.pc == 0x0200 && t.getV 1 == 0 && t.dt == 4) = true := by decide
theorem test_key_lowest : gives ((State.reset.withFetchWord 16 0xF10A).withInput 0x0840 0)
    (fun t => t.pc == 0x0202 && t.getV 1 == 6) = true := by decide

-- 44_timer.md, examples of R190 to R192
theorem test_movVxDt : gives (placed 0xF307 { State.reset with dt := 2 })
    (fun t => t.getV 3 == 2 && t.dt == 1) = true := by decide
theorem test_movDtVx : gives (placed 0xFA15 (State.reset.setV 10 3)) (fun t => t.dt == 2 && t.st == 0) = true := by decide
theorem test_movStVx : gives (placed 0xF118 (State.reset.setV 1 1)) (fun t => t.st == 0 && t.pc == 0x0202) = true := by
  decide

/-- R222, R256: the fault outputs of the step of 95 section 2.2, and the state unchanged. -/
theorem test_fault_ports :
    stepWith 0 0 { State.reset with pc := 0x0300, dt := 5 } =
      (⟨true, 1, 0x0000, 0x0300, 0⟩, { State.reset with pc := 0x0300, dt := 5 }) := rfl

/-- P1 of 95: the launch places a ROM at 0x200, and the first step runs its first instruction. -/
theorem test_launch : ∃ s, launch Config.standard [0x60, 0x05, 0x70, 0x03] = .next s ∧
    gives s (fun t => t.getV 0 == 5 && t.pc == 0x0202) = true := ⟨_, rfl, by decide⟩

/-- The machine behind the host's interface is this one. -/
theorem test_core : core.step = step ∧ core.reset = State.reset := ⟨rfl, rfl⟩

/-! ### Witnesses: states and operands that meet the hypotheses of each statement -/

theorem test_meets_EncodeDecodeAgree : decode 0x8AB4 = .ok (.add 10 11) := by decide

theorem test_meets_OpcodeTableAgrees : opcodeRows[33]? = some ⟨0xF0FF, 0xF065⟩ ∧ decode 0xF265 = .ok (.movmLoad 2) := by
  decide

theorem test_meets_DecodeEncodeAgree : (Instr.draw 15 15 15).wf = true := by decide

theorem test_meets_ResetValues : (79 < 80) ∧ (0x04F < Config.standard.fontBase.toNat) ∧
    Config.standard.fontBase.toNat + 80 ≤ 0x0A0 := by decide

theorem test_meets_LaunchMeetsTheInvariant : ∃ t, launch Config.standard [0x12, 0x00] = .next t := ⟨_, rfl⟩

/-- A skip from the top of memory with a live return address at the bound. -/
theorem test_meets_StepKeepsTheInvariant : ∃ s t : State, s.Inv ∧ s.stk[0] = 0x1000 ∧ s.sp.val = 1 ∧
    step s = .next t ∧ t.pc = 0x1002 :=
  ⟨placed 0x3000 { State.reset with pc := 0x0FFE, sp := 1, stk := State.reset.stk.set 0 0x1000 }, _,
    ⟨by decide, by decide, by decide⟩, by decide, by decide, rfl, by decide⟩

/-- Both sides of R294's bound: 3583 bytes (odd, padded at 0xFFF) fit, 3585 do not. -/
theorem test_meets_LaunchPlacesTheRom : Config.standard.wf = true ∧
    (Config.standard.fontBase.toNat + 80 ≤ 0x1FF ∧ 0x1FF < 0x200) ∧
    (List.replicate 3583 (0 : Byte)).length + (List.replicate 3583 (0 : Byte)).length % 2 ≤ 3584 ∧
    (List.replicate 3583 (0 : Byte)).length % 2 = 1 ∧
    3584 < (List.replicate 3585 (0 : Byte)).length + (List.replicate 3585 (0 : Byte)).length % 2 := by
  simp only [List.length_replicate]; decide

theorem test_meets_FetchIsBigEndian : ({ State.reset with pc := 0x0FFE } : State).pc.toNat ≤ 0xFFE := by decide

theorem test_meets_StepRunsTheDecodedInstruction : ∃ s t : State, s.pc.toNat ≤ 0xFFE ∧
    decodeBytes [s.readByte s.pc.toNat, s.readByte (s.pc.toNat + 1)] = .ok (.mvi 0 7, []) ∧
    exec (.mvi 0 7) s = .next t :=
  ⟨placed 0x6007 { State.reset with pc := 0x0FFE }, _, by decide, by decide, rfl⟩

theorem test_meets_StepRunsTheDecodedInstruction_fault : ∃ (s : State) (f : Fault), s.pc.toNat ≤ 0xFFE ∧
    decodeBytes [s.readByte s.pc.toNat, s.readByte (s.pc.toNat + 1)] = .ok (.ret, []) ∧ exec .ret s = .fault f :=
  ⟨placed 0x00EE State.reset, _, by decide, by decide, rfl⟩

theorem test_meets_FetchAboveTheTopFaults : 0xFFE < ({ State.reset with pc := 0x0FFF } : State).pc.toNat := by decide

theorem test_meets_IllegalWordFaults : State.reset.fetch = .ok 0x0000 ∧ ∀ i, decode 0x0000 ≠ .ok i :=
  ⟨rfl, fun _ h => Except.noConfusion rfl rfl (heq_of_eq h)⟩

theorem test_meets_InstructionsFaultExactlyAsListed :
    instrFault (.draw 0 0 0) { State.reset with i := 0xFFFF } = none ∧
      instrFault (.draw 0 0 1) { State.reset with i := 0x0FFF } = none ∧
      instrFault (.draw 0 0 2) { State.reset with i := 0x0FFF } = some (.indexOutOfRange 0xD002 0x0200 0x1000) ∧
      instrFault (.key 0) State.reset = none := by decide

/-- A step that goes on and one that does not. -/
theorem test_meets_step_goes_on : (∃ t, step (placed 0x1200 State.reset) = .next t ∧ t.pc = 0x0200) ∧
    ∃ f, step State.reset = .fault f := ⟨⟨_, rfl, by decide⟩, _, rfl⟩

/-- 95 section 2.4, first row: the loop on its own address runs as long as the host steps it, and ticks (R301). -/
theorem test_self_jump_does_not_halt :
    (runWith [⟨0, 0⟩, ⟨0, 0⟩, ⟨0, 0⟩] ({ State.reset with dt := 5 }.withFetchWord 16 0x1200)).2.dt = 2 := by decide

theorem test_meets_FaultsRepeatForever : (stepWith 0 0 State.reset).1.valid = true := by decide

theorem test_meets_FaultRecordOfAStep :
    0xFFE < ({ State.reset with pc := 0x0FFF } : State).pc.toNat ∧
    (State.reset.fetch = .ok 0x0000 ∧ ∀ i, decode 0x0000 ≠ .ok i) ∧
    ((placed 0xD012 { State.reset with i := 0xFFF }).fetch = .ok 0xD012 ∧ decode 0xD012 = .ok (.draw 0 1 2)) :=
  ⟨by decide, ⟨rfl, fun _ h => Except.noConfusion rfl rfl (heq_of_eq h)⟩, rfl, by decide⟩

/-- The codes and the `info` of R256, each cause beside the nearest state that does not fault. -/
theorem test_fault_codes :
    [placed 0x2200 { State.reset with sp := 16 }, placed 0x2200 { State.reset with sp := 15 },
      placed 0x00EE State.reset, placed 0x00EE { State.reset with sp := 1 },
      placed 0xD012 { State.reset with i := 0xFFF }, placed 0xD011 { State.reset with i := 0xFFF },
      placed 0xE19E (State.reset.setV 1 16), placed 0xE19E (State.reset.setV 1 15)].map
        (fun s => ((stepWith 0 0 s).1.code, (stepWith 0 0 s).1.info)) =
      [(2, 0), (0, 0), (3, 0), (0, 0), (4, 0x1000), (0, 0), (4, 16), (0, 0)] := by decide

/-- A reset with another sampled quirk (R293). -/
theorem test_reset_samples_quirk : (State.reset.applyReset false).cfg.shiftQuirk = false ∧
    ((legacy 1 2).applyReset true).cfg.shiftQuirk = true := by decide

theorem test_meets_TimersTickOnceAStep : ∃ t, step (placed 0xFA15 (State.reset.setV 10 0xFF)) = .next t ∧
    t.dt.toNat = 0xFE := ⟨_, rfl, by decide⟩

theorem test_meets_SoundTimerIsNeverRead : (∃ f, exec .ret State.reset = .fault f) ∧
    (∃ t, exec (.movStVx 1) State.reset = .next t) ∧ ∃ t, exec (.cls) State.reset = .next t :=
  ⟨⟨_, rfl⟩, ⟨_, rfl⟩, _, rfl⟩

theorem test_meets_InstructionsWriteOnlyTheirParts : ∃ t, exec (.movmStore 15) { State.reset with i := 0xFF0 } = .next t :=
  ⟨_, rfl⟩

theorem test_meets_InstructionsWriteOnlyTheirRegisters :
    (∃ t, exec (.add 1 2) State.reset = .next t) ∧ writesReg (.add 1 2) 2 = false ∧ writesReg (.movmLoad 3) 4 = false :=
  ⟨⟨_, rfl⟩, by decide, by decide⟩

theorem test_meets_PcAfterEveryInstruction : ∃ t, exec .ret { State.reset with sp := 16 } = .next t := ⟨_, rfl⟩

theorem test_meets_ConfigurationNeverChanges : ∃ t, step (placed 0x8126 (legacy 5 8)) = .next t ∧
    t.cfg.shiftQuirk = false := ⟨_, rfl, by decide⟩

theorem test_meets_CallPushesAndJumps : ({ State.reset with sp := 15 } : State).sp.val < 16 ∧ (14 : Fin 16).val ≠ 15 := by
  decide

theorem test_meets_CallOnAFullStackFaults : ({ State.reset with sp := 16 } : State).sp.val = 16 ∧
    ∃ w p, exec (.call 0x300) { State.reset with sp := 16 } = .fault (.stackOverflow w p) := ⟨by decide, _, _, rfl⟩

theorem test_meets_RetPopsIntoPc : ({ State.reset with sp := 16 } : State).sp.val = (15 : Fin 16).val + 1 ∧
    ({ State.reset with sp := 1 } : State).sp.val = (0 : Fin 16).val + 1 := by decide

theorem test_meets_RetOnAnEmptyStackFaults : State.reset.sp.val = 0 ∧
    ∃ w p, exec .ret State.reset = .fault (.stackUnderflow w p) := ⟨by decide, _, _, rfl⟩

theorem test_meets_CallThenRetReturns : ({ State.reset with sp := 15 } : State).sp.val < 16 := by decide

theorem test_meets_StackIsLastInFirstOut : State.reset.sp.val + (List.replicate 16 (0x0202 : Word)).length ≤ 16 := by
  decide

theorem test_meets_RegisterSkips : (1 : Nibble) ≠ 0 ∧ (15 : Nibble) ≠ 0 := by decide

/-- The other registers of the statements about one destination, and a destination that is not VF. -/
theorem test_meets_destinations : (14 : Nibble) ≠ 15 ∧ (0 : Nibble) ≠ 14 ∧ (0 : Nibble) ≠ 15 := by decide

theorem test_meets_AluCodeIsTheFunctionNibble :
    decode (BitVec.ofNat 16 (0x8000 + (1 : Nibble).toNat * 256 + (2 : Nibble).toNat * 16 + AluOp.shl.code.toNat)) =
      .ok (.shl 1 2) := by decide

theorem test_meets_shifts : (5 : Byte) = (if (two 5 8).cfg.shiftQuirk = true then (two 5 8).getV 1 else (two 5 8).getV 2) ∧
    (8 : Byte) = (if (legacy 5 8).cfg.shiftQuirk = true then (legacy 5 8).getV 1 else (legacy 5 8).getV 2) := by decide

theorem test_meets_index_bounds : ((two 15 16).getV 1).toNat ≤ 15 ∧ 15 < ((two 15 16).getV 2).toNat := by decide

theorem test_meets_MovBcdStoresTheDigits : ({ State.reset with i := 0xFFD } : State).i.toNat + 2 ≤ 0xFFF ∧
    0xFFF < ({ State.reset with i := 0xFFE } : State).i.toNat + 2 ∧
    (0xFFC < ({ State.reset with i := 0xFFD } : State).i.toNat ∨
      ({ State.reset with i := 0xFFD } : State).i.toNat + 3 ≤ 0xFFC) := by decide

theorem test_meets_Movm : ({ State.reset with i := 0xFF0 } : State).i.toNat + (15 : Nibble).toNat ≤ 0xFFF ∧
    0xFFF < ({ State.reset with i := 0xFF1 } : State).i.toNat + (15 : Nibble).toNat ∧
    (15 : Nibble).toNat ≤ (15 : Nibble).toNat := by decide

theorem test_meets_StoredBytesAreFetchedAtOnce : (∃ t, exec (.movmStore 1) { State.reset with i := 0xFFE } = .next t) ∧
    (1 : Nibble).toNat = (0 : Nibble).toNat + 1 ∧ (1 : Nibble).toNat ≤ (1 : Nibble).toNat ∧
    (0x0FFE : Word).toNat = ({ State.reset with i := 0xFFE } : State).i.toNat + (0 : Nibble).toNat :=
  ⟨⟨_, rfl⟩, by decide⟩

theorem test_meets_DrawXorsTheSprite : ((0 : Nibble) = 0) ∧
    ({ State.reset with i := 0xFFF } : State).i.toNat + (1 : Nibble).toNat - 1 ≤ 0xFFF ∧
    (2 : Nibble) ≠ 0 ∧ 0xFFF < ({ State.reset with i := 0xFFF } : State).i.toNat + (2 : Nibble).toNat - 1 := by decide

theorem test_meets_DrawTwiceRestoresTheDisplay : (14 : Nibble) ≠ 15 ∧
    ({ State.reset with i := 0xFF1 } : State).i.toNat + (15 : Nibble).toNat - 1 ≤ 0xFFF := by decide

theorem test_meets_KeyWaitsForAKey : (State.reset.withInput 0 0).keys = 0 ∧ (State.reset.withInput 0x8000 0).keys ≠ 0 := by
  decide

theorem test_meets_MovFromDelayTimer : (placed 0xF307 State.reset).fetch = .ok 0xF307 ∧
    decode 0xF307 = .ok (.movVxDt 3) := ⟨rfl, by decide⟩

theorem test_meets_MovToTheTimers : (placed 0xFA15 State.reset).fetch = .ok 0xFA15 ∧ decode 0xFA15 = .ok (.movDtVx 10) ∧
    (placed 0xF118 State.reset).fetch = .ok 0xF118 ∧ decode 0xF118 = .ok (.movStVx 1) :=
  ⟨rfl, by decide, rfl, by decide⟩

end Sys2Proof.Tests
end

section
/-! The fetch (20_memory.md R44). -/

namespace Sys2Proof.Machine

/-- Settles O13: an in-range fetch succeeds with the word of the two bytes at `PC`, whose value is big-endian. -/
theorem fetchIsBigEndian : Obligations.FetchIsBigEndian := by
  intro s hpc
  exact ⟨_, State.fetch_ok hpc, wordOfBytes_toNat _ _⟩

end Sys2Proof.Machine
end

section
/-! The decoder's fields (30_encoding.md R61, R63). -/

namespace Sys2Proof.Machine

/-- Settles O1 by evaluation: the statement is closed, so `decide` computes all six fields of each of the two words. -/
theorem decoderWorkedExamples : Obligations.DecoderWorkedExamples := by
  unfold Obligations.DecoderWorkedExamples
  decide

end Sys2Proof.Machine
end

section
/-! The words of the opcode table as numbers, read by the decoder (30_encoding.md R64, R66). -/

namespace Sys2Proof

/-- An instruction's word is read back from whatever number the word is. -/
theorem Laws.RoundTrip.Statement.decode_ofNat {i : Instr} {w : Nat} (h : Laws.RoundTrip.Statement i)
    (hw : encode i = BitVec.ofNat 16 w) : decode (BitVec.ofNat 16 w) = .ok i :=
  hw ▸ h

theorem decode_of_dispatch_eq_none {w : Word} (h : dispatch (decodeFields w) = none) :
    decode w = .error (.illegalOpcode w) := by
  simp [decode, h]

/-- Classes 5 and 9 hold one instruction each, with the low nibble 0 (R67): every other low nibble is illegal. -/
theorem decode_wordXYN_illegal_of_n_ne_zero {op x y n : Nibble} (hop : op = 5 ∨ op = 9) (hn : n ≠ 0) :
    decode (wordXYN op x y n) = .error (.illegalOpcode (wordXYN op x y n)) := by
  apply decode_of_dispatch_eq_none
  rcases hop with rfl | rfl
  · simpa [dispatch, decodeFields_wordXYN] using hn
  · simpa [dispatch, decodeFields_wordXYN] using hn

/-- The words of classes 5 and 9 with a low nibble other than 0 are no instruction (R105, R106). -/
theorem decode_ofNat_ne_ok_of_n_ne_zero {op x y n : Nibble} (hop : op = 5 ∨ op = 9) (hn : n ≠ 0) (i : Instr) :
    decode (BitVec.ofNat 16 (op.toNat * 4096 + x.toNat * 256 + y.toNat * 16 + n.toNat)) ≠ .ok i := by
  rw [← wordXYN_eq_ofNat, decode_wordXYN_illegal_of_n_ne_zero hop hn]
  simp

end Sys2Proof
end

section
/-! Jumps and skips (40_control_flow.md R101, R103 to R106). -/

namespace Sys2Proof.Machine
open Laws

/-! ### What writes `PC` alone -/

theorem State.changesOnly_withPc (s : State) (p : Word) : s.changesOnly { s with pc := p } [.pc] := by
  apply State.changesOnly_of_fields <;> simp

theorem State.changesOnly_skipIf (s : State) (c : Bool) : s.changesOnly (s.skipIf c) [.pc] :=
  s.changesOnly_withPc _

@[simp] theorem addrOperand_toNat (nnn : Addr12) : (addrOperand nnn).toNat = nnn.toNat :=
  BitVec.toNat_setWidth_of_le (by decide)

/-! ### The meanings -/

theorem exec_jump (nnn : Addr12) (s : State) : exec (.jump nnn) s = .next { s with pc := addrOperand nnn } := rfl

theorem exec_skipEqImm (x : Nibble) (nn : Byte) (s : State) :
    exec (.skipEqImm x nn) s = .next (s.skipIf (s.getV x == nn)) := rfl

theorem exec_skipNeImm (x : Nibble) (nn : Byte) (s : State) :
    exec (.skipNeImm x nn) s = .next (s.skipIf (s.getV x != nn)) := rfl

theorem exec_skipEqReg (x y : Nibble) (s : State) :
    exec (.skipEqReg x y) s = .next (s.skipIf (s.getV x == s.getV y)) := rfl

theorem exec_skipNeReg (x y : Nibble) (s : State) :
    exec (.skipNeReg x y) s = .next (s.skipIf (s.getV x != s.getV y)) := rfl

/-- What every skip does, whatever its condition: `PC + 4` where the condition holds, `PC + 2` where it does not (R16),
and nothing else. -/
theorem completes_of_exec_eq_skipIf {i : Instr} {s : State} {c : Bool} {P : Prop} [Decidable P]
    (he : exec i s = .next (s.skipIf c)) (hc : c = true ↔ P) :
    ∃ t, exec i s = .next t ∧ t.pc = (if P then s.pc + 4 else s.pc + 2) ∧ s.changesOnly t [.pc] :=
  ⟨s.skipIf c, he, by simp only [State.skipIf_pc, hc], s.changesOnly_skipIf c⟩

/-! ### The obligations -/

/-- Settles O26: the word is the one the encoder writes, and the meaning replaces `PC` by the zero-extended address. -/
theorem jumpGoesToItsAddress : Obligations.JumpGoesToItsAddress := by
  intro nnn s
  have hdecode := (RoundTrip.jump nnn).decode_ofNat (wordNNN_eq_ofNat 1 nnn)
  exact ⟨hdecode, _, exec_jump nnn s, addrOperand_toNat nnn, s.changesOnly_withPc _⟩

/-- Settles O34: both words are the encoder's, and both meanings are `skipIf` on the comparison with `nn`. -/
theorem immediateSkips : Obligations.ImmediateSkips := by
  intro x nn s
  refine ⟨?_, ?_, ?_, ?_⟩
  · exact (RoundTrip.skipEqImm x nn).decode_ofNat (wordXNN_eq_ofNat 3 x nn)
  · exact (RoundTrip.skipNeImm x nn).decode_ofNat (wordXNN_eq_ofNat 4 x nn)
  · exact completes_of_exec_eq_skipIf (exec_skipEqImm x nn s) beq_iff_eq
  · exact completes_of_exec_eq_skipIf (exec_skipNeImm x nn s) bne_iff_ne

/-- Settles O35: as for the immediate skips; a low nibble other than 0 dispatches to nothing in both classes. -/
theorem registerSkips : Obligations.RegisterSkips := by
  intro x y s
  refine ⟨?_, ?_, fun n i hn => ⟨?_, ?_⟩, ?_, ?_⟩
  · exact (RoundTrip.skipEqReg x y).decode_ofNat (wordXYN_eq_ofNat 5 x y 0)
  · exact (RoundTrip.skipNeReg x y).decode_ofNat (wordXYN_eq_ofNat 9 x y 0)
  · exact decode_ofNat_ne_ok_of_n_ne_zero (.inl rfl) hn i
  · exact decode_ofNat_ne_ok_of_n_ne_zero (.inr rfl) hn i
  · exact completes_of_exec_eq_skipIf (exec_skipEqReg x y s) beq_iff_eq
  · exact completes_of_exec_eq_skipIf (exec_skipNeReg x y s) bne_iff_ne

end Sys2Proof.Machine
end

section
/-! Loading and adding an immediate (41_alu.md R121, R122). -/

namespace Sys2Proof.Machine
open Laws

/-! ### What writes `V[x]` and advances -/

theorem State.changesOnly_setV_advance (s : State) (x : Nibble) (b : Byte) :
    s.changesOnly (s.setV x b).advance [.regs, .pc] := by
  apply State.changesOnly_of_fields <;> simp

/-- What every instruction does that writes one register and no flag: `V[x]` gets the byte, every other register is
kept (VF too, unless it is the destination), `PC + 2`, and nothing else (R12, R14, R16). -/
theorem completes_of_exec_eq_setV_advance {i : Instr} {s : State} {x : Nibble} {b : Byte}
    (he : exec i s = .next (s.setV x b).advance) :
    ∃ t, exec i s = .next t ∧ t.getV x = b ∧ (∀ r, r ≠ x → t.getV r = s.getV r) ∧ t.pc = s.pc + 2 ∧
      s.changesOnly t [.regs, .pc] :=
  ⟨_, he, s.getV_setV_same x b, fun r => s.getV_setV_of_ne x r b, rfl, s.changesOnly_setV_advance x b⟩

/-! ### The meanings -/

/-- The ALU's sum is modulo 256 (R120). -/
theorem alu_add_r_toNat (a b : Byte) : (alu .add a b).r.toNat = (a.toNat + b.toNat) % 256 :=
  BitVec.toNat_ofNat ..

theorem exec_mvi (x : Nibble) (nn : Byte) (s : State) : exec (.mvi x nn) s = .next (s.setV x nn).advance := rfl

theorem exec_adi (x : Nibble) (nn : Byte) (s : State) :
    exec (.adi x nn) s = .next (s.setV x (alu .add (s.getV x) nn).r).advance := rfl

/-! ### The obligations -/

/-- Settles O36: the word is the encoder's, and the meaning writes `nn` to `V[x]` and advances. -/
theorem mviLoadsTheImmediate : Obligations.MviLoadsTheImmediate := by
  intro x nn s
  have hdecode := (RoundTrip.mvi x nn).decode_ofNat (wordXNN_eq_ofNat 6 x nn)
  exact ⟨hdecode, completes_of_exec_eq_setV_advance (exec_mvi x nn s)⟩

/-- Settles O37: the meaning writes the ALU's sum, which wraps, to `V[x]` and drops the carry. -/
theorem adiWrapsWithoutAFlag : Obligations.AdiWrapsWithoutAFlag := by
  intro x nn s
  have hdecode := (RoundTrip.adi x nn).decode_ofNat (wordXNN_eq_ofNat 7 x nn)
  obtain ⟨t, he, hsum, hframe⟩ := completes_of_exec_eq_setV_advance (exec_adi x nn s)
  exact ⟨hdecode, t, he, hsum ▸ alu_add_r_toNat (s.getV x) nn, hframe⟩

end Sys2Proof.Machine
end

section
/-! Loading the index register (42_index_memory.md R150). -/

namespace Sys2Proof.Machine
open Laws

/-! ### What writes `I` and advances -/

theorem State.changesOnly_withI_advance (s : State) (a : Word) :
    s.changesOnly ({ s with i := a } : State).advance [.index, .pc] := by
  apply State.changesOnly_of_fields <;> simp

/-! ### The meaning -/

theorem exec_mviI (nnn : Addr12) (s : State) :
    exec (.mviI nnn) s = .next ({ s with i := addrOperand nnn } : State).advance := rfl

/-! ### The obligation -/

/-- Settles O47: the word is the encoder's, and the meaning replaces `I` by the zero-extended address and advances. -/
theorem mviILoadsTheAddress : Obligations.MviILoadsTheAddress := by
  intro nnn s
  have hdecode := (RoundTrip.mviI nnn).decode_ofNat (wordNNN_eq_ofNat 0xA nnn)
  exact ⟨hdecode, _, exec_mviI nnn s, addrOperand_toNat nnn, rfl, s.changesOnly_withI_advance _⟩

end Sys2Proof.Machine
end

section
/-! Clearing the display (43_display_keypad.md R170). -/

namespace Sys2Proof.Machine
open Laws

/-! ### What writes the display and advances -/

theorem State.changesOnly_withFb_advance (s : State) (fb : Display) :
    s.changesOnly ({ s with fb := fb } : State).advance [.display, .pc] := by
  apply State.changesOnly_of_fields <;> simp

/-! ### The meaning -/

theorem exec_cls (s : State) : exec .cls s = .next ({ s with fb := Display.clear } : State).advance := rfl

/-! ### The obligation -/

/-- Settles O54: the word is the encoder's, and the meaning replaces the display by the cleared one and advances. -/
theorem clsClearsEveryCell : Obligations.ClsClearsEveryCell := by
  intro s
  exact ⟨RoundTrip.cls, _, exec_cls s, Display.cell_clear, rfl, s.changesOnly_withFb_advance _⟩

end Sys2Proof.Machine
end

section
/-! Reading the delay timer (44_timer.md R190). -/

namespace Sys2Proof

/-- The words of an instruction with a fixed low byte: the word for `x = 0`, plus `x` times 256. -/
theorem wordXNN_eq_ofNat_base_add {op : Nibble} {nn : Byte} {base : Nat} (h : op.toNat * 4096 + nn.toNat = base)
    (x : Nibble) : wordXNN op x nn = BitVec.ofNat 16 (base + x.toNat * 256) := by
  rw [wordXNN_eq_ofNat, ← h, Nat.add_right_comm]

end Sys2Proof

namespace Sys2Proof.Machine
open Laws

/-! ### A step that runs a completing instruction -/

/-- After the execution the step ticks and uses up its input (R220). -/
theorem step_of_exec_next {s t : State} {w : Word} {i : Instr} (hf : s.fetch = .ok w) (hd : decode w = .ok i)
    (he : exec i s = .next t) : step s = .next t.tick.takeInput := by
  rw [step_of_decode hf hd, he, finishStep]

/-! ### The meaning -/

theorem exec_movVxDt (x : Nibble) (s : State) : exec (.movVxDt x) s = .next (s.setV x s.dt).advance := rfl

/-! ### The obligation -/

/-- Settles O59: the word is the encoder's, and the meaning writes the timer to `V[x]` and advances; the tick that
follows in the step keeps the register and lowers the timer, which the meaning left as it was. -/
theorem movFromDelayTimer : Obligations.MovFromDelayTimer := by
  intro x s
  have hexec := exec_movVxDt x s
  refine ⟨?decodes, ?completes, fun w hf hd => ⟨_, step_of_exec_next hf hd hexec, ?register, ?timer⟩⟩
  case decodes => exact (RoundTrip.movVxDt x).decode_ofNat (wordXNN_eq_ofNat_base_add rfl x)
  case completes => exact completes_of_exec_eq_setV_advance hexec
  case register => simp only [State.getV_takeInput, State.getV_tick, State.getV_advance, State.getV_setV_same]
  case timer => simp only [State.takeInput_dt, State.tick_dt, State.advance_dt, State.setV_dt, tickTimer_toNat]

end Sys2Proof.Machine
end

section
/-! A word that is no instruction (60_exceptions.md R251). -/

namespace Sys2Proof

/-- A word that decodes to no instruction is rejected by its name (R68). -/
theorem decode_eq_error_of_forall_ne_ok {w : Word} (h : ∀ i, decode w ≠ .ok i) :
    decode w = .error (.illegalOpcode w) :=
  (Machine.decode_cases w).resolve_left fun ⟨i, hi⟩ => h i hi

end Sys2Proof

namespace Sys2Proof.Machine

/-- A fault discards nothing and writes nothing: the state after it is the state before (R259). -/
theorem stateAfter_of_eq_fault {s : State} {r : Result} {f : Fault} (h : r = .fault f) : stateAfter s r = s := by
  rw [h, stateAfter]

/-- Settles O16: the decoder rejects the word by its name, which the step raises with `PC`, and a fault keeps the
state. -/
theorem illegalWordFaults : Obligations.IllegalWordFaults := by
  intro s w hfetch hno
  have hstep := step_of_illegal hfetch (decode_eq_error_of_forall_ne_ok hno)
  exact ⟨hstep, stateAfter_of_eq_fault hstep⟩

end Sys2Proof.Machine
end

section
/-! A launch: where the ROM lands, and which ROM is refused (70_reset_and_hazards.md R294). -/

namespace Sys2Proof

theorem romFits_iff (rom : List Byte) : romFits rom = true ↔ rom.length + rom.length % 2 ≤ 3584 :=
  decide_eq_true_iff

/-- R303: in a legal configuration the font table lies below the ROM. -/
theorem Config.font_end_le_of_wf {c : Config} (h : c.wf = true) : c.fontBase.toNat + 80 ≤ 0x200 := by
  obtain ⟨hfits, -⟩ := (Bool.and_eq_true_iff.1 h : c.fontFits = true ∧ c.fontWhole = true)
  exact of_decide_eq_true hfits

end Sys2Proof

namespace Sys2Proof.Machine

/-! ### Memory after reset -/

theorem State.readByte_resetWith (c : Config) (a : Nat) : (State.resetWith c).readByte a = resetByte c a := rfl

theorem resetByte_font (c : Config) {k : Nat} (hk : k < 80) :
    resetByte c (c.fontBase.toNat + k) = c.fontData.getD k 0 := by
  rw [resetByte, if_pos (by omega), Nat.add_sub_cancel_left]

theorem resetByte_of_not_font {c : Config} {a : Nat} (ha : a < c.fontBase.toNat ∨ c.fontBase.toNat + 80 ≤ a) :
    resetByte c a = 0 :=
  if_neg (by omega)

/-! ### The ROM in memory -/

theorem State.changesOnly_writeBytes (s : State) (a : Nat) (bs : List Byte) :
    s.changesOnly (s.writeBytes a bs) [.memory] := by
  apply State.changesOnly_of_fields <;> simp

/-- Reading with the default 0x00 does not see the padding byte, which is 0x00 (R294). -/
theorem paddedRom_getD (rom : List Byte) (k : Nat) : (paddedRom rom).getD k 0 = rom.getD k 0 := by
  unfold paddedRom
  split
  · by_cases hk : k < rom.length
    · exact List.getD_append _ _ _ _ hk
    · have hend : rom.length ≤ k := not_lt.1 hk
      rw [List.getD_append_right _ _ _ _ hend, List.getD_eq_getElem?_getD, List.getElem?_getD_singleton_default_eq,
        List.getD_eq_default _ _ hend]
  · rfl

/-- All of memory at the first step (R294): the reset content below 0x200, from there on the ROM and then 0x00. -/
theorem readByte_loaded {c : Config} (hc : c.wf = true) (rom : List Byte) (a : Nat) :
    ((State.resetWith c).writeBytes 0x200 (paddedRom rom)).readByte a =
      if a < 0x200 then resetByte c a else rom.getD (a - 0x200) 0 := by
  have hfont := Config.font_end_le_of_wf hc
  have hpad : rom.length ≤ paddedLength rom := Nat.le_add_right ..
  rw [State.readByte_writeBytes, paddedRom_length, paddedRom_getD, State.readByte_resetWith]
  by_cases hlow : a < 0x200
  · rw [if_neg (by omega), if_pos hlow]
  rw [if_neg hlow]
  by_cases hstored : a < 0x200 + paddedLength rom
  · rw [if_pos (by omega)]
  · rw [if_neg (by omega), resetByte_of_not_font (by omega), List.getD_eq_default _ _ (by omega)]

theorem readByte_loaded_rom {c : Config} (hc : c.wf = true) (rom : List Byte) (k : Nat) :
    ((State.resetWith c).writeBytes 0x200 (paddedRom rom)).readByte (0x200 + k) = rom.getD k 0 := by
  rw [readByte_loaded hc, if_neg (by omega), Nat.add_sub_cancel_left]

/-! ### The obligation -/

/-- Settles O12: a launch that is not refused stores the padded ROM over the reset state, and `readByte_loaded` gives
each byte of memory in that state; it is refused exactly when the ROM does not fit. -/
theorem launchPlacesTheRom : Obligations.LaunchPlacesTheRom := by
  intro c rom hc
  have hfont := Config.font_end_le_of_wf hc
  rw [launch_eq, if_pos hc, ← romFits_iff, ← not_le, ← romFits_iff]
  refine ⟨fun hfits => ⟨_, if_pos hfits, fun k hk => ?rom, fun _ => ?padding, fun k hk => ?font,
    fun a hnotFont hnotRom => ?zero, ?frame⟩, fun hlong => if_neg hlong⟩
  case rom => rw [readByte_loaded_rom hc, List.getD_eq_getElem _ _ hk]
  case padding => rw [readByte_loaded_rom hc, List.getD_eq_default _ _ le_rfl]
  case font => rw [readByte_loaded hc, if_pos (by omega), resetByte_font c hk]
  case zero =>
    rw [readByte_loaded hc]
    by_cases hlow : a < 0x200
    · rw [if_pos hlow, resetByte_of_not_font hnotFont]
    · rw [if_neg hlow, List.getD_eq_default _ _ (by omega)]
  case frame => exact State.changesOnly_writeBytes ..

end Sys2Proof.Machine
end

section
/-! The decoder and the encoder are inverse (30_encoding.md R60, R66, R69). -/

namespace Sys2Proof
open Laws

/-! ### From an instruction to its word and back -/

/-- The round trip of every instruction (R66). -/
theorem decode_encode : ∀ i : Instr, decode (encode i) = .ok i
  | .cls => RoundTrip.cls
  | .ret => RoundTrip.ret
  | .jump nnn => RoundTrip.jump nnn
  | .call nnn => RoundTrip.call nnn
  | .skipEqImm x nn => RoundTrip.skipEqImm x nn
  | .skipNeImm x nn => RoundTrip.skipNeImm x nn
  | .skipEqReg x y => RoundTrip.skipEqReg x y
  | .mvi x nn => RoundTrip.mvi x nn
  | .adi x nn => RoundTrip.adi x nn
  | .mov x y => RoundTrip.mov x y
  | .or x y => RoundTrip.or x y
  | .and x y => RoundTrip.and x y
  | .xor x y => RoundTrip.xor x y
  | .add x y => RoundTrip.add x y
  | .sub x y => RoundTrip.sub x y
  | .shr x y => RoundTrip.shr x y
  | .subn x y => RoundTrip.subn x y
  | .shl x y => RoundTrip.shl x y
  | .skipNeReg x y => RoundTrip.skipNeReg x y
  | .mviI nnn => RoundTrip.mviI nnn
  | .jumpV0 nnn => RoundTrip.jumpV0 nnn
  | .rndmsk x nn => RoundTrip.rndmsk x nn
  | .draw x y n => RoundTrip.draw x y n
  | .skipKeyY x => RoundTrip.skipKeyY x
  | .skipKeyN x => RoundTrip.skipKeyN x
  | .movVxDt x => RoundTrip.movVxDt x
  | .key x => RoundTrip.key x
  | .movDtVx x => RoundTrip.movDtVx x
  | .movStVx x => RoundTrip.movStVx x
  | .adiI x => RoundTrip.adiI x
  | .spriteChar x => RoundTrip.spriteChar x
  | .movBcd x => RoundTrip.movBcd x
  | .movmStore x => RoundTrip.movmStore x
  | .movmLoad x => RoundTrip.movmLoad x

/-- Two bytes whose word decodes are read as that instruction, and the rest is handed back (R60). -/
theorem decodeBytes_of_decode {hi lo : Byte} {i : Instr} (h : decode (wordOfBytes hi lo) = .ok i)
    (rest : List Byte) : decodeBytes (hi :: lo :: rest) = .ok (i, rest) := by
  simp only [decodeBytes, h]

/-- Settles O4: the round trip of each instruction, and the two bytes in memory make the encoder's word again. -/
theorem decodeEncodeAgree : Obligations.DecodeEncodeAgree := by
  intro i _
  have hbytes : decode (wordOfBytes (highByte (encode i)) (lowByte (encode i))) = .ok i := by
    rw [wordOfBytes_high_low, decode_encode]
  exact ⟨decode_encode i, decodeBytes_of_decode hbytes⟩

end Sys2Proof
end

section
/-! The decoder's fields and the words they come from (30_encoding.md R61, R64 to R67). -/

namespace Sys2Proof

/-- Settles O3: each field is a slice of the word's number. -/
theorem fieldsRebuildTheWord : Obligations.FieldsRebuildTheWord := by
  intro w
  have := w.isLt
  rw [decodeFields_op, decodeFields_x, decodeFields_y, decodeFields_n, decodeFields_nn, decodeFields_nnn]
  refine ⟨rfl, rfl, rfl, rfl, ?_, ?_, ?_, rfl⟩ <;> omega

/-- Settles O2: closed words, which the decoder evaluates. -/
theorem sampleWordsDecode : Obligations.SampleWordsDecode := by
  unfold Obligations.SampleWordsDecode
  decide

/-! ### A word is rebuilt from the fields of its format (R64) -/

theorem wordNNN_decodeFields {w : Word} {op : Nibble} (hop : (decodeFields w).op.toNat = op.toNat) :
    wordNNN op (decodeFields w).nnn = w := by
  rw [decodeFields_op] at hop
  apply BitVec.eq_of_toNat_eq
  rw [wordNNN_toNat, decodeFields_nnn]
  omega

theorem wordXNN_decodeFields {w : Word} {op : Nibble} (hop : (decodeFields w).op.toNat = op.toNat) :
    wordXNN op (decodeFields w).x (decodeFields w).nn = w := by
  rw [decodeFields_op] at hop
  apply BitVec.eq_of_toNat_eq
  rw [wordXNN_toNat, decodeFields_x, decodeFields_nn]
  omega

theorem wordXYN_decodeFields {w : Word} {op : Nibble} (hop : (decodeFields w).op.toNat = op.toNat) :
    wordXYN op (decodeFields w).x (decodeFields w).y (decodeFields w).n = w := by
  rw [decodeFields_op] at hop
  apply BitVec.eq_of_toNat_eq
  rw [wordXYN_toNat, decodeFields_x, decodeFields_y, decodeFields_n]
  omega

/-! ### The encoder inverts the dispatch, class by class (R67) -/

theorem encode_of_dispatchAlu {f : Fields} {i : Instr} (h : dispatchAlu f = some i) :
    encode i = wordXYN 0x8 f.x f.y f.n := by
  have word_of_code {n : Nibble} (hn : f.n.toNat = n.toNat) : wordXYN 0x8 f.x f.y n = wordXYN 0x8 f.x f.y f.n := by
    rw [BitVec.eq_of_toNat_eq hn]
  unfold dispatchAlu at h
  split at h <;> cases h <;> exact word_of_code ‹_›

theorem encode_of_dispatchMisc {f : Fields} {i : Instr} (h : dispatchMisc f = some i) :
    encode i = wordXNN 0xF f.x f.nn := by
  have word_of_code {nn : Byte} (hnn : f.nn.toNat = nn.toNat) : wordXNN 0xF f.x nn = wordXNN 0xF f.x f.nn := by
    rw [BitVec.eq_of_toNat_eq hnn]
  unfold dispatchMisc at h
  split at h <;> cases h <;> exact word_of_code ‹_›

/-- A word that the dispatch accepts is the encoding of its instruction. -/
theorem encode_of_dispatch {w : Word} {i : Instr} (h : dispatch (decodeFields w) = some i) : encode i = w := by
  unfold dispatch at h
  split at h
  case h_1 hop =>
    split_ifs at h with hcls hret <;> cases h
    · exact (congrArg (wordNNN 0x0) hcls.symm).trans (wordNNN_decodeFields hop)
    · exact (congrArg (wordNNN 0x0) hret.symm).trans (wordNNN_decodeFields hop)
  case h_6 hop | h_10 hop =>
    split_ifs at h with hn
    cases h
    exact (congrArg (wordXYN _ _ _) hn.symm).trans (wordXYN_decodeFields hop)
  case h_9 hop => exact (encode_of_dispatchAlu h).trans (wordXYN_decodeFields hop)
  case h_14 hop =>
    cases h
    exact wordXYN_decodeFields hop
  case h_15 hop =>
    split_ifs at h with hdown hup <;> cases h
    · exact (congrArg (wordXNN 0xE _) hdown.symm).trans (wordXNN_decodeFields hop)
    · exact (congrArg (wordXNN 0xE _) hup.symm).trans (wordXNN_decodeFields hop)
  case h_16 hop => exact (encode_of_dispatchMisc h).trans (wordXNN_decodeFields hop)
  case h_2 hop | h_3 hop | h_11 hop | h_12 hop =>
    cases h
    exact wordNNN_decodeFields hop
  case h_4 hop | h_5 hop | h_7 hop | h_8 hop | h_13 hop =>
    cases h
    exact wordXNN_decodeFields hop
  case h_17 => cases h

/-! ### Legal and illegal words -/

theorem decode_eq_ok_iff_dispatch {w : Word} {i : Instr} : decode w = .ok i ↔ dispatch (decodeFields w) = some i := by
  unfold decode
  split <;> simp_all

/-- Settles O5: in each class the encoder puts back the fields that the dispatch read. -/
theorem encodeDecodeAgree : Obligations.EncodeDecodeAgree := fun _ _ h =>
  encode_of_dispatch (decode_eq_ok_iff_dispatch.1 h)

/-- The decoder is the inverse of the encoder. -/
theorem decode_eq_ok_iff {w : Word} {i : Instr} : decode w = .ok i ↔ encode i = w :=
  ⟨encodeDecodeAgree w i, fun h => h ▸ decode_encode i⟩

theorem decode_eq_illegal_iff {w : Word} :
    decode w = .error (.illegalOpcode w) ↔ dispatch (decodeFields w) = none := by
  unfold decode
  split <;> simp_all

/-! ### What the dispatch refuses (R68) -/

theorem dispatchAlu_eq_none_iff {f : Fields} :
    dispatchAlu f = none ↔ f.n.toNat ∈ [0x8, 0x9, 0xA, 0xB, 0xC, 0xD, 0xF] := by
  have := f.n.isLt
  unfold dispatchAlu
  split
  case h_10 =>
    simp only [imp_false] at *
    simp
    omega
  all_goals simp_all

theorem dispatchMisc_eq_none_iff {f : Fields} :
    dispatchMisc f = none ↔ f.nn.toNat ∉ [0x07, 0x0A, 0x15, 0x18, 0x1E, 0x29, 0x33, 0x55, 0x65] := by
  unfold dispatchMisc
  split <;> simp_all

theorem dispatch_eq_none_iff {f : Fields} :
    dispatch f = none ↔
      (f.op.toNat = 0x0 ∧ f.nnn ≠ 0x0E0 ∧ f.nnn ≠ 0x0EE) ∨ (f.op.toNat = 0x5 ∧ f.n ≠ 0x0) ∨
      (f.op.toNat = 0x8 ∧ dispatchAlu f = none) ∨ (f.op.toNat = 0x9 ∧ f.n ≠ 0x0) ∨
      (f.op.toNat = 0xE ∧ f.nn ≠ 0x9E ∧ f.nn ≠ 0xA1) ∨ (f.op.toNat = 0xF ∧ dispatchMisc f = none) := by
  have := f.op.isLt
  unfold dispatch
  split
  case h_17 =>
    simp only [imp_false] at *
    exfalso
    omega
  case h_1 | h_15 => split_ifs <;> simp_all
  all_goals simp_all

/-- Settles O7: the dispatch refuses class by class, and the fields are slices of the word's number. -/
theorem illegalWordsByClass : Obligations.IllegalWordsByClass := by
  intro w
  rw [decode_eq_illegal_iff, dispatch_eq_none_iff, dispatchAlu_eq_none_iff, dispatchMisc_eq_none_iff]
  simp only [ne_eq, ← BitVec.toNat_inj, decodeFields_op, decodeFields_n, decodeFields_nn, decodeFields_nnn]
  refine or_congr (and_congr_right fun hop => ?classZero) (or_congr_right (or_congr_right (or_congr_right
    (or_congr_left (and_congr_right fun _ => ?classE)))))
  case classZero =>
    rw [show w.toNat % 4096 = w.toNat by omega]
    rfl
  case classE => simp

end Sys2Proof
end

section
/-! The mask and match column of the opcode table (30_encoding.md R66): each mask keeps whole fields of the word, so a
row says which values some of the fields have. -/

namespace Sys2Proof

/-! ### Words with the same fields are the same -/

theorem word_eq_iff_fieldsXYN {w w' : Word} :
    w = w' ↔ (decodeFields w).op = (decodeFields w').op ∧ (decodeFields w).x = (decodeFields w').x ∧
      (decodeFields w).y = (decodeFields w').y ∧ (decodeFields w).n = (decodeFields w').n := by
  refine ⟨fun h => by simp only [h, and_self], fun ⟨hop, hx, hy, hn⟩ => ?_⟩
  rw [← wordXYN_decodeFields (w := w) rfl, hop, hx, hy, hn, wordXYN_decodeFields rfl]

theorem word_eq_iff_fieldsXNN {w w' : Word} :
    w = w' ↔ (decodeFields w).op = (decodeFields w').op ∧ (decodeFields w).x = (decodeFields w').x ∧
      (decodeFields w).nn = (decodeFields w').nn := by
  refine ⟨fun h => by simp only [h, and_self], fun ⟨hop, hx, hnn⟩ => ?_⟩
  rw [← wordXNN_decodeFields (w := w) rfl, hop, hx, hnn, wordXNN_decodeFields rfl]

/-! ### The four masks -/

theorem OpcodeRow.covers_iff {m p w : Word} : OpcodeRow.covers ⟨m, p⟩ w = true ↔ w &&& m = p := decide_eq_true_iff

/-- The mask of a row without operands. -/
theorem covers_word_iff {p w : Word} : OpcodeRow.covers ⟨0xFFFF, p⟩ w = true ↔ w = p := by
  rw [OpcodeRow.covers_iff, show (0xFFFF : Word) = BitVec.allOnes 16 from rfl, BitVec.and_allOnes]

/-- A mask and a pattern in format XYN, compared field by field. -/
theorem covers_wordXYN_iff {op x y n op' x' y' n' : Nibble} {w : Word} :
    OpcodeRow.covers ⟨wordXYN op x y n, wordXYN op' x' y' n'⟩ w = true ↔
      (decodeFields w).op &&& op = op' ∧ (decodeFields w).x &&& x = x' ∧ (decodeFields w).y &&& y = y' ∧
        (decodeFields w).n &&& n = n' := by
  obtain ⟨hop, hx, hy, hn⟩ := decodeFields_wordXYN op x y n
  simp only [OpcodeRow.covers_iff, word_eq_iff_fieldsXYN, decodeFields_wordXYN]
  simp only [decodeFields] at hop hx hy hn ⊢
  simp only [BitVec.extractLsb'_and, hop, hx, hy, hn]

/-- A mask and a pattern in format XNN, compared field by field. -/
theorem covers_wordXNN_iff {op x op' x' : Nibble} {nn nn' : Byte} {w : Word} :
    OpcodeRow.covers ⟨wordXNN op x nn, wordXNN op' x' nn'⟩ w = true ↔
      (decodeFields w).op &&& op = op' ∧ (decodeFields w).x &&& x = x' ∧ (decodeFields w).nn &&& nn = nn' := by
  obtain ⟨hop, hx, hnn⟩ := decodeFields_wordXNN op x nn
  simp only [OpcodeRow.covers_iff, word_eq_iff_fieldsXNN, decodeFields_wordXNN]
  simp only [decodeFields] at hop hx hnn ⊢
  simp only [BitVec.extractLsb'_and, hop, hx, hnn]

/-- The mask of the rows that fix `op` alone. -/
theorem covers_op_iff {op : Nibble} {w : Word} :
    OpcodeRow.covers ⟨0xF000, wordXNN op 0 0⟩ w = true ↔ (decodeFields w).op = op := by
  rw [show (0xF000 : Word) = wordXNN (BitVec.allOnes 4) 0 0 from rfl, covers_wordXNN_iff]
  simp only [BitVec.and_allOnes]
  simp

/-- The mask of the rows that fix `op` and `n`. -/
theorem covers_op_n_iff {op n : Nibble} {w : Word} :
    OpcodeRow.covers ⟨0xF00F, wordXYN op 0 0 n⟩ w = true ↔ (decodeFields w).op = op ∧ (decodeFields w).n = n := by
  rw [show (0xF00F : Word) = wordXYN (BitVec.allOnes 4) 0 0 (BitVec.allOnes 4) from rfl, covers_wordXYN_iff]
  simp only [BitVec.and_allOnes]
  simp

/-- The mask of the rows that fix `op` and `nn`. -/
theorem covers_op_nn_iff {op : Nibble} {nn : Byte} {w : Word} :
    OpcodeRow.covers ⟨0xF0FF, wordXNN op 0 nn⟩ w = true ↔ (decodeFields w).op = op ∧ (decodeFields w).nn = nn := by
  rw [show (0xF0FF : Word) = wordXNN (BitVec.allOnes 4) 0 (BitVec.allOnes 8) from rfl, covers_wordXNN_iff]
  simp only [BitVec.and_allOnes]
  simp

/-! ### The words a row covers, in the formats of the encoder -/

section
variable {op : Nibble} {w : Word}

theorem wordNNN_of_covers (h : OpcodeRow.covers ⟨0xF000, wordXNN op 0 0⟩ w = true) :
    wordNNN op (decodeFields w).nnn = w :=
  wordNNN_decodeFields (congrArg BitVec.toNat (covers_op_iff.1 h))

theorem wordXNN_of_covers_op (h : OpcodeRow.covers ⟨0xF000, wordXNN op 0 0⟩ w = true) :
    wordXNN op (decodeFields w).x (decodeFields w).nn = w :=
  wordXNN_decodeFields (congrArg BitVec.toNat (covers_op_iff.1 h))

theorem wordXYN_of_covers_op (h : OpcodeRow.covers ⟨0xF000, wordXNN op 0 0⟩ w = true) :
    wordXYN op (decodeFields w).x (decodeFields w).y (decodeFields w).n = w :=
  wordXYN_decodeFields (congrArg BitVec.toNat (covers_op_iff.1 h))

theorem wordXYN_of_covers {n : Nibble} (h : OpcodeRow.covers ⟨0xF00F, wordXYN op 0 0 n⟩ w = true) :
    wordXYN op (decodeFields w).x (decodeFields w).y n = w := by
  obtain ⟨hop, rfl⟩ := covers_op_n_iff.1 h
  exact wordXYN_decodeFields (congrArg BitVec.toNat hop)

theorem wordXNN_of_covers {nn : Byte} (h : OpcodeRow.covers ⟨0xF0FF, wordXNN op 0 nn⟩ w = true) :
    wordXNN op (decodeFields w).x nn = w := by
  obtain ⟨hop, rfl⟩ := covers_op_nn_iff.1 h
  exact wordXNN_decodeFields (congrArg BitVec.toNat hop)

end

/-! ### Rows and instructions -/

/-- Every word that a row covers is the encoding of an instruction of that row. -/
theorem exists_encode_of_covers {w : Word} : ∀ {k : Nat} {r : OpcodeRow}, opcodeRows[k]? = some r →
    r.covers w = true → ∃ i, encode i = w ∧ i.row = k
  | 0, _, rfl, h => ⟨.cls, (covers_word_iff.1 h).symm, rfl⟩
  | 1, _, rfl, h => ⟨.ret, (covers_word_iff.1 h).symm, rfl⟩
  | 2, _, rfl, h => ⟨.jump _, wordNNN_of_covers h, rfl⟩
  | 3, _, rfl, h => ⟨.call _, wordNNN_of_covers h, rfl⟩
  | 4, _, rfl, h => ⟨.skipEqImm _ _, wordXNN_of_covers_op h, rfl⟩
  | 5, _, rfl, h => ⟨.skipNeImm _ _, wordXNN_of_covers_op h, rfl⟩
  | 6, _, rfl, h => ⟨.skipEqReg _ _, wordXYN_of_covers h, rfl⟩
  | 7, _, rfl, h => ⟨.mvi _ _, wordXNN_of_covers_op h, rfl⟩
  | 8, _, rfl, h => ⟨.adi _ _, wordXNN_of_covers_op h, rfl⟩
  | 9, _, rfl, h => ⟨.mov _ _, wordXYN_of_covers h, rfl⟩
  | 10, _, rfl, h => ⟨.or _ _, wordXYN_of_covers h, rfl⟩
  | 11, _, rfl, h => ⟨.and _ _, wordXYN_of_covers h, rfl⟩
  | 12, _, rfl, h => ⟨.xor _ _, wordXYN_of_covers h, rfl⟩
  | 13, _, rfl, h => ⟨.add _ _, wordXYN_of_covers h, rfl⟩
  | 14, _, rfl, h => ⟨.sub _ _, wordXYN_of_covers h, rfl⟩
  | 15, _, rfl, h => ⟨.shr _ _, wordXYN_of_covers h, rfl⟩
  | 16, _, rfl, h => ⟨.subn _ _, wordXYN_of_covers h, rfl⟩
  | 17, _, rfl, h => ⟨.shl _ _, wordXYN_of_covers h, rfl⟩
  | 18, _, rfl, h => ⟨.skipNeReg _ _, wordXYN_of_covers h, rfl⟩
  | 19, _, rfl, h => ⟨.mviI _, wordNNN_of_covers h, rfl⟩
  | 20, _, rfl, h => ⟨.jumpV0 _, wordNNN_of_covers h, rfl⟩
  | 21, _, rfl, h => ⟨.rndmsk _ _, wordXNN_of_covers_op h, rfl⟩
  | 22, _, rfl, h => ⟨.draw _ _ _, wordXYN_of_covers_op h, rfl⟩
  | 23, _, rfl, h => ⟨.skipKeyY _, wordXNN_of_covers h, rfl⟩
  | 24, _, rfl, h => ⟨.skipKeyN _, wordXNN_of_covers h, rfl⟩
  | 25, _, rfl, h => ⟨.movVxDt _, wordXNN_of_covers h, rfl⟩
  | 26, _, rfl, h => ⟨.key _, wordXNN_of_covers h, rfl⟩
  | 27, _, rfl, h => ⟨.movDtVx _, wordXNN_of_covers h, rfl⟩
  | 28, _, rfl, h => ⟨.movStVx _, wordXNN_of_covers h, rfl⟩
  | 29, _, rfl, h => ⟨.adiI _, wordXNN_of_covers h, rfl⟩
  | 30, _, rfl, h => ⟨.spriteChar _, wordXNN_of_covers h, rfl⟩
  | 31, _, rfl, h => ⟨.movBcd _, wordXNN_of_covers h, rfl⟩
  | 32, _, rfl, h => ⟨.movmStore _, wordXNN_of_covers h, rfl⟩
  | 33, _, rfl, h => ⟨.movmLoad _, wordXNN_of_covers h, rfl⟩

/-- The row an instruction stands in covers its word. -/
theorem covers_encode {i : Instr} {r : OpcodeRow} (hr : opcodeRows[i.row]? = some r) : r.covers (encode i) = true := by
  have fixes_op_NNN (op nnn) : OpcodeRow.covers ⟨0xF000, wordXNN op 0 0⟩ (wordNNN op nnn) = true :=
    covers_op_iff.2 (decodeFields_wordNNN op nnn).1
  have fixes_op_XNN (op x nn) : OpcodeRow.covers ⟨0xF000, wordXNN op 0 0⟩ (wordXNN op x nn) = true :=
    covers_op_iff.2 (decodeFields_wordXNN op x nn).1
  have fixes_op_n (op x y n) : OpcodeRow.covers ⟨0xF00F, wordXYN op 0 0 n⟩ (wordXYN op x y n) = true :=
    let ⟨hop, _, _, hn⟩ := decodeFields_wordXYN op x y n
    covers_op_n_iff.2 ⟨hop, hn⟩
  have fixes_op_nn (op x nn) : OpcodeRow.covers ⟨0xF0FF, wordXNN op 0 nn⟩ (wordXNN op x nn) = true :=
    let ⟨hop, _, hnn⟩ := decodeFields_wordXNN op x nn
    covers_op_nn_iff.2 ⟨hop, hnn⟩
  cases i with
  | cls | ret => cases hr; rfl
  | jump _ | call _ | mviI _ | jumpV0 _ => cases hr; exact fixes_op_NNN ..
  | skipEqImm _ _ | skipNeImm _ _ | mvi _ _ | adi _ _ | rndmsk _ _ => cases hr; exact fixes_op_XNN ..
  | skipEqReg _ _ | skipNeReg _ _ | mov _ _ | or _ _ | and _ _ | xor _ _ | add _ _ | sub _ _ | shr _ _ | subn _ _
  | shl _ _ => cases hr; exact fixes_op_n ..
  | draw x y n => cases hr; exact covers_op_iff.2 (decodeFields_wordXYN 0xD x y n).1
  | skipKeyY _ | skipKeyN _ | movVxDt _ | key _ | movDtVx _ | movStVx _ | adiI _ | spriteChar _ | movBcd _
  | movmStore _ | movmLoad _ => cases hr; exact fixes_op_nn ..

/-- Settles O6: a covered word is an encoding of the row's instruction, and the decoder inverts the encoder. -/
theorem opcodeTableAgrees : Obligations.OpcodeTableAgrees := by
  refine ⟨rfl, fun w k r hr => ?_⟩
  simp only [decode_eq_ok_iff]
  refine ⟨exists_encode_of_covers hr, ?_⟩
  rintro ⟨i, rfl, rfl⟩
  exact covers_encode hr

end Sys2Proof
end

section
/-! What an instruction does, said once: the fault of the complete list of causes, or one state. -/

namespace Sys2Proof.Machine

/-- The state an instruction leaves when it completes. `exec_eq` ties it to the meanings; where the instruction faults
the value is of no use. -/
def effect (i : Instr) (s : State) : State :=
  match i with
  | .cls => { s with fb := Display.clear }.advance
  | .ret => s.pop.elim s fun (a, t) => { t with pc := a }
  | .jump nnn => { s with pc := addrOperand nnn }
  | .call nnn => (s.push (s.pc + 2)).elim s fun t => { t with pc := addrOperand nnn }
  | .skipEqImm x nn => s.skipIf (s.getV x == nn)
  | .skipNeImm x nn => s.skipIf (s.getV x != nn)
  | .skipEqReg x y => s.skipIf (s.getV x == s.getV y)
  | .skipNeReg x y => s.skipIf (s.getV x != s.getV y)
  | .mvi x nn => (s.setV x nn).advance
  | .adi x nn => (s.setV x (alu .add (s.getV x) nn).r).advance
  | .mov x y => s.aluStep .passB x (s.getV x) (s.getV y)
  | .or x y => s.aluStep .or x (s.getV x) (s.getV y)
  | .and x y => s.aluStep .and x (s.getV x) (s.getV y)
  | .xor x y => s.aluStep .xor x (s.getV x) (s.getV y)
  | .add x y => s.aluStep .add x (s.getV x) (s.getV y)
  | .sub x y => s.aluStep .sub x (s.getV x) (s.getV y)
  | .shr x y => s.aluStep .shr x (s.shiftOperand x y) (s.getV y)
  | .subn x y => s.aluStep .subn x (s.getV x) (s.getV y)
  | .shl x y => s.aluStep .shl x (s.shiftOperand x y) (s.getV y)
  | .mviI nnn => { s with i := addrOperand nnn }.advance
  | .jumpV0 nnn => { s with pc := addrOperand nnn + s.wideV 0 }
  | .rndmsk x nn => s.aluStep .and x s.rnd nn
  | .draw x y n => ({ s with fb := (drawResult x y n s).1 }.setFlag (drawResult x y n s).2).advance
  | .skipKeyY x => s.skipIf (s.keyDown (s.getV x))
  | .skipKeyN x => s.skipIf (!s.keyDown (s.getV x))
  | .movVxDt x => (s.setV x s.dt).advance
  | .key x => (lowestKey s.keys).elim s fun k => (s.setV x (k.setWidth 8)).advance
  | .movDtVx x => { s with dt := s.getV x }.advance
  | .movStVx x => { s with st := s.getV x }.advance
  | .adiI x => { s with i := s.i + s.wideV x }.advance
  | .spriteChar x => { s with i := glyphAddress s.cfg (s.getV x) }.advance
  | .movBcd x => (s.writeBytes s.i.toNat (bcdDigits (s.getV x))).advance
  | .movmStore x => (s.writeBytes s.i.toNat (s.firstRegs x)).advance
  | .movmLoad x => (s.loadRegs x s.i.toNat).advance

/-! ### The guards as a choice between the fault and the state -/

/-- `hP` is the range check in the words of the list of causes (R254). -/
theorem State.guardAccess_eq_elim {s done : State} {i : Instr} {a n : Nat} {P : Prop} [Decidable P]
    (hP : P ↔ n ≠ 0 ∧ memTop + 1 < a + n) :
    s.guardAccess i a n done =
      (if P then some (.indexOutOfRange (encode i) s.pc (BitVec.ofNat 17 (max a 0x1000))) else none).elim
        (.next done) .fault := by
  split_ifs with h
  · obtain ⟨hn, hrange⟩ := hP.1 h
    exact State.guardAccess_fault hn hrange
  · rw [hP] at h
    exact State.guardAccess_next (by omega)

theorem State.guardIndex_eq_elim {s done : State} {i : Instr} {k : Byte} :
    s.guardIndex i k done =
      (if 15 < k.toNat then some (.indexOutOfRange (encode i) s.pc (BitVec.ofNat 17 k.toNat)) else none).elim
        (.next done) .fault := by
  split_ifs with h
  · exact State.guardIndex_fault h
  · exact State.guardIndex_next (by omega)

/-! ### Every instruction -/

/-- An instruction raises the fault that the list of causes names, and completes where it names none. -/
theorem exec_eq (i : Instr) (s : State) : exec i s = (instrFault i s).elim (.next (effect i s)) .fault := by
  have := s.sp.isLt
  cases i with
  | ret =>
    simp only [exec, execRet, instrFault, effect]
    split_ifs with hsp
    · rw [(State.pop_eq_none_iff s).2 hsp]; rfl
    · rw [State.pop_eq_some s hsp]; rfl
  | call nnn =>
    simp only [exec, execCall, instrFault, effect]
    split_ifs with hsp
    · rw [(State.push_eq_none_iff s _).2 hsp]; rfl
    · rw [State.push_eq_some s _ (by omega)]; rfl
  | key x =>
    simp only [exec, execKey, instrFault, effect]
    cases lowestKey s.keys <;> rfl
  | draw x y n => exact State.guardAccess_eq_elim (by simp only [memTop]; omega)
  | movBcd x => exact State.guardAccess_eq_elim (by simp only [memTop]; omega)
  | movmStore x => exact State.guardAccess_eq_elim (by simp only [memTop]; omega)
  | movmLoad x => exact State.guardAccess_eq_elim (by simp only [memTop]; omega)
  | skipKeyY x | skipKeyN x | spriteChar x => exact State.guardIndex_eq_elim
  | _ => rfl

theorem exec_eq_next_iff {i : Instr} {s t : State} :
    exec i s = .next t ↔ instrFault i s = none ∧ effect i s = t := by
  rw [exec_eq]
  cases instrFault i s <;> simp

theorem exec_eq_fault_iff {i : Instr} {s : State} {f : Fault} : exec i s = .fault f ↔ instrFault i s = some f := by
  rw [exec_eq]
  cases instrFault i s <;> simp

/-- What an instruction without a cause to fault does. -/
theorem exec_of_instrFault_eq_none {i : Instr} {s : State} (h : instrFault i s = none) :
    exec i s = .next (effect i s) :=
  exec_eq_next_iff.2 ⟨h, rfl⟩

end Sys2Proof.Machine
end

section
/-! What a step does, said once: the fault of the complete list of causes, or the effect of one instruction and the
tick (50_blocks_and_interfaces.md R220, 60_exceptions.md R250 to R261). -/

namespace Sys2Proof.Machine

/-- The fault of a step, from the complete list of causes (R251 to R254): of the fetch, of the dispatch, of the
instruction. -/
def stepFault (s : State) : Option Fault :=
  match s.fetch with
  | .error f => some f
  | .ok w =>
    match decode w with
    | .error _ => some (.illegalOpcode w s.pc)
    | .ok i => instrFault i s

theorem stepFault_of_fetch_error {s : State} {f : Fault} (hf : s.fetch = .error f) : stepFault s = some f := by
  simp only [stepFault, hf]

theorem stepFault_of_illegal {s : State} {w : Word} {e : DecodeError} (hf : s.fetch = .ok w)
    (hd : decode w = .error e) : stepFault s = some (.illegalOpcode w s.pc) := by
  simp only [stepFault, hf, hd]

theorem stepFault_of_decode {s : State} {w : Word} {i : Instr} (hf : s.fetch = .ok w) (hd : decode w = .ok i) :
    stepFault s = instrFault i s := by
  simp only [stepFault, hf, hd]

/-- No cause to fault is a fetch, a legal word and an instruction without a cause. -/
theorem stepFault_eq_none_iff {s : State} :
    stepFault s = none ↔ ∃ w i, s.fetch = .ok w ∧ decode w = .ok i ∧ instrFault i s = none := by
  constructor
  · intro h
    cases hf : s.fetch with
    | error f => rw [stepFault_of_fetch_error hf] at h; cases h
    | ok w =>
      rcases decode_cases w with ⟨i, hd⟩ | hd
      · exact ⟨w, i, rfl, hd, stepFault_of_decode hf hd ▸ h⟩
      · rw [stepFault_of_illegal hf hd] at h; cases h
  · rintro ⟨w, i, hf, hd, hi⟩
    rw [stepFault_of_decode hf hd, hi]

theorem step_of_stepFault_eq_some {s : State} {f : Fault} (h : stepFault s = some f) : step s = .fault f := by
  cases hf : s.fetch with
  | error g =>
    rw [stepFault_of_fetch_error hf] at h
    cases h
    exact step_of_fetch_error hf
  | ok w =>
    rcases decode_cases w with ⟨i, hd⟩ | hd
    · rw [stepFault_of_decode hf hd] at h
      rw [step_of_decode hf hd, exec_eq_fault_iff.2 h, finishStep]
    · rw [stepFault_of_illegal hf hd] at h
      cases h
      exact step_of_illegal hf hd

theorem exists_step_eq_next_iff {s : State} : (∃ t, step s = .next t) ↔ stepFault s = none := by
  constructor
  · rintro ⟨t, ht⟩
    cases h : stepFault s with
    | none => rfl
    | some f => rw [step_of_stepFault_eq_some h] at ht; cases ht
  · intro h
    obtain ⟨w, i, hf, hd, hi⟩ := stepFault_eq_none_iff.1 h
    exact ⟨_, step_of_exec_next hf hd (exec_of_instrFault_eq_none hi)⟩

/-- Settles O17: `exec_eq` for the instructions, and the causes of a step are those of its three phases. -/
theorem instructionsFaultExactlyAsListed : Obligations.InstructionsFaultExactlyAsListed := by
  intro i s
  refine ⟨fun h => ⟨_, exec_of_instrFault_eq_none h⟩, fun f h => exec_eq_fault_iff.2 h, ?_, ?_⟩
  · cases h : stepFault s with
    | none => exact .inl (exists_step_eq_next_iff.2 h)
    | some f => exact .inr ⟨f, step_of_stepFault_eq_some h⟩
  · rw [exists_step_eq_next_iff, stepFault_eq_none_iff]

/-! ### The fault outputs (R216, R222, R256) -/

/-- Whether a step faults, and how, does not depend on its inputs (R261). -/
theorem stepFault_withInput (s : State) (keys : Keys) (rnd : Byte) :
    stepFault (s.withInput keys rnd) = stepFault s := by
  simp only [stepFault, State.withInput_fetch, State.withInput_pc, instrFault_withInput]

theorem stepWith_of_stepFault_eq_some {s : State} {f : Fault} (h : stepFault s = some f) (keys : Keys) (rnd : Byte) :
    stepWith keys rnd s = (f.ports, s) := by
  rw [← stepFault_withInput s keys rnd] at h
  rw [stepWith, step_of_stepFault_eq_some h, stepPorts, stateAfter]

/-- The fault outputs of any step: the record of its fault, all zero where there is none. -/
theorem stepWith_ports (keys : Keys) (rnd : Byte) (s : State) :
    (stepWith keys rnd s).1 = (stepFault s).elim ⟨false, 0, 0, 0, 0⟩ Fault.ports := by
  cases h : stepFault s with
  | some f => rw [stepWith_of_stepFault_eq_some h, Option.elim_some]
  | none =>
    rw [← stepFault_withInput s keys rnd] at h
    obtain ⟨t, ht⟩ := exists_step_eq_next_iff.2 h
    rw [stepWith, ht, stepPorts, Option.elim_none]

/-- A run from a state whose step faults answers every request with that record (R261). -/
theorem runWith_of_stepFault_eq_some {s : State} {f : Fault} (h : stepFault s = some f) (reqs : List StepInput) :
    runWith reqs s = (List.replicate reqs.length f.ports, s) := by
  induction reqs with
  | nil => rfl
  | cons k rest ih => simp only [runWith, stepWith_of_stepFault_eq_some h, ih, List.length_cons, List.replicate_succ]

/-- Settles O18: the cause of a fault stands in the state, which a fault keeps and the inputs do not touch. -/
theorem faultsRepeatForever : Obligations.FaultsRepeatForever := by
  intro keys keys' rnd rnd' s hvalid
  cases h : stepFault s with
  | none =>
    rw [stepWith_ports, h] at hvalid
    cases hvalid
  | some f =>
    have hstep := stepWith_of_stepFault_eq_some h
    rw [hstep]
    exact ⟨rfl, hstep keys' rnd', runWith_of_stepFault_eq_some h⟩

/-- Settles O19: the record of each cause, whose word is the one fetched because the encoder inverts the decoder. -/
theorem faultRecordOfAStep : Obligations.FaultRecordOfAStep := by
  intro keys rnd s
  rw [stepWith_ports]
  refine ⟨fun hpc => ?above, fun w hf => ⟨fun hno => ?illegal, fun i hd => ?legal⟩⟩
  case above => rw [stepFault_of_fetch_error (State.fetch_error hpc)]; rfl
  case illegal => rw [stepFault_of_illegal hf (decode_eq_error_of_forall_ne_ok hno)]; rfl
  case legal =>
    rw [stepFault_of_decode hf hd]
    obtain rfl := decode_eq_ok_iff.1 hd
    cases i with
    | call _ | ret | draw _ _ _ | movBcd _ | movmStore _ | movmLoad _ | skipKeyY _ | skipKeyN _ | spriteChar _ =>
      simp only [instrFault]
      split_ifs <;> rfl
    | _ => rfl

/-! ### The phases of a step -/

/-- Settles O15: the fetch raises the fault, and a fault keeps the state. -/
theorem fetchAboveTheTopFaults : Obligations.FetchAboveTheTopFaults := by
  intro s hpc
  have hstep := step_of_fetch_error (State.fetch_error hpc)
  exact ⟨hstep, stateAfter_of_eq_fault hstep⟩

theorem decode_of_decodeBytes {hi lo : Byte} {i : Instr} (h : decodeBytes [hi, lo] = .ok (i, [])) :
    decode (wordOfBytes hi lo) = .ok i := by
  simp only [decodeBytes] at h
  split at h
  case h_1 j hj => cases h; exact hj
  case h_2 => cases h

theorem State.takeInput_pending (s : State) : s.takeInput.pending = s.pending.tail := by
  unfold State.takeInput
  split <;> simp_all

theorem State.takeInput_drawn (s : State) :
    s.takeInput.drawn = if s.pending = [] then s.drawn + 1 else s.drawn := by
  unfold State.takeInput
  split <;> simp_all

/-- The end of a step changes the timers and the inputs of the coming steps alone. -/
theorem State.agreesOn_tick_takeInput (s : State) {p : Part} (hd : p ≠ .delayTimer) (hs : p ≠ .soundTimer) :
    s.agreesOn s.tick.takeInput p := by
  cases p with
  | delayTimer => exact absurd rfl hd
  | soundTimer => exact absurd rfl hs
  | regs => exact fun r => by simp
  | memory => exact fun a => State.readByte_congr (by simp) (by simp) a
  | _ => simp [State.agreesOn]

/-- Settles O14: the fetched word is the one of the two bytes, and `finishStep` is the tick and the end of the input. -/
theorem stepRunsTheDecodedInstruction : Obligations.StepRunsTheDecodedInstruction := by
  intro s i hpc hbytes
  have hfetch := State.fetch_ok hpc
  have hdecode := decode_of_decodeBytes hbytes
  refine ⟨fun t ht => ⟨_, step_of_exec_next hfetch hdecode ht, fun p => t.agreesOn_tick_takeInput, ?_, ?_, ?_, ?_, ?_⟩,
    fun f hfault => ?_⟩
  · rw [State.takeInput_cfg, State.tick_cfg]
  · rw [State.takeInput_dt, State.tick_dt, tickTimer_toNat]
  · rw [State.takeInput_st, State.tick_st, tickTimer_toNat]
  · exact State.takeInput_pending t.tick
  · exact State.takeInput_drawn t.tick
  · rw [step_of_decode hfetch hdecode, hfault, finishStep]

end Sys2Proof.Machine
end

section
/-! The call stack, CALL, RET and JUMP+V0 (40_control_flow.md R100, R102, R107; 50_blocks_and_interfaces.md R208,
R209). -/

namespace Sys2Proof.Machine

/-! ### Push and pop -/

/-- A pop of the slot `k` below `SP`. -/
theorem State.pop_of_sp_eq_succ {s : State} {k : Fin 16} (h : s.sp.val = k.val + 1) :
    s.pop = some (s.stk[k], { s with sp := k.castSucc }) := by
  cases hp : s.pop with
  | none => rw [State.pop_eq_none_iff] at hp; omega
  | some r =>
    obtain ⟨j, hj, ha, ht⟩ := State.pop_eq_some_iff (a := r.1) (t := r.2) hp
    obtain rfl : j = k := Fin.ext (by omega)
    exact congrArg some (Prod.ext ha ht)

/-- A push fills the slot `SP`, the next pop reads it (R208). -/
theorem State.getElem_set_sp (s : State) (a : Word) (h : s.sp.val < 16) (k : Fin 16) :
    (s.stk.set s.sp.val a h)[k] = if k.val = s.sp.val then a else s.stk[k] := by
  simp only [Fin.getElem_fin, Vector.getElem_set, eq_comm]

/-- What a push and what a pop change (R24). -/
theorem State.changesOnly_withStack (s : State) (stk : Vector Word 16) (sp : Fin 17) :
    s.changesOnly { s with stk := stk, sp := sp } [.stack] := by
  apply State.changesOnly_of_fields <;> simp

theorem State.changesOnly_withStack_withPc (s : State) (stk : Vector Word 16) (sp : Fin 17) (p : Word) :
    s.changesOnly { s with stk := stk, sp := sp, pc := p } [.stack, .pc] := by
  apply State.changesOnly_of_fields <;> simp

/-- What two steps leave alone each, they leave alone together. -/
theorem State.changesOnly.trans {s t u : State} {parts : List Part} (hst : s.changesOnly t parts)
    (htu : t.changesOnly u parts) : s.changesOnly u parts := by
  refine ⟨fun p hp => ?_, htu.cfg.trans hst.cfg, htu.pending.trans hst.pending, htu.drawn.trans hst.drawn⟩
  have h₁ := hst.agrees p hp
  have h₂ := htu.agrees p hp
  cases p with
  | regs | memory => exact fun r => (h₂ r).trans (h₁ r)
  | display => exact fun r c => (h₂ r c).trans (h₁ r c)
  | stack => exact ⟨h₂.1.trans h₁.1, fun k => (h₂.2 k).trans (h₁.2 k)⟩
  | index | pc | delayTimer | soundTimer => exact Eq.trans h₂ h₁

/-! ### The stack as a sequence -/

/-- Popping one address more is one more pop at the end. -/
theorem popAll_succ {s t u : State} {k : Nat} {as : List Word} {a : Word} (h : popAll s k = some (as, t))
    (hpop : t.pop = some (a, u)) : popAll s (k + 1) = some (as ++ [a], u) := by
  induction k generalizing s as with
  | zero =>
    obtain ⟨rfl, rfl⟩ := Prod.mk.inj (Option.some.inj h)
    simp only [popAll, hpop, List.nil_append]
  | succ k ih =>
    rw [popAll] at h
    split at h
    case h_2 => cases h
    case h_1 b v hb =>
      split at h
      case h_2 => cases h
      case h_1 rest w hrest =>
        obtain ⟨rfl, rfl⟩ := Prod.mk.inj (Option.some.inj h)
        rw [popAll, hb]
        simp only [ih hrest, List.cons_append]

/-- Settles O33, by induction on the list: the addresses after the first are pushed and popped above it, and the last
pop finds the first where it was pushed. -/
theorem stackIsLastInFirstOut : Obligations.StackIsLastInFirstOut := by
  intro s as
  induction as generalizing s with
  | nil => exact fun _ => ⟨s, s, rfl, rfl, rfl, fun _ _ => rfl, s.changesOnly_withStack s.stk s.sp⟩
  | cons a rest ih =>
    intro hroom
    rw [List.length_cons] at hroom
    have hsp : s.sp.val < 16 := by omega
    have hpush := s.push_eq_some a hsp
    obtain ⟨t, u, hpushAll, hpopAll, husp, hslots, hframe⟩ :=
      ih { s with stk := s.stk.set s.sp.val a hsp, sp := ⟨s.sp.val + 1, Nat.succ_lt_succ hsp⟩ } (by simp only; omega)
    have htop : u.stk[(⟨s.sp.val, hsp⟩ : Fin 16)] = a := by
      rw [hslots _ (Nat.lt_succ_self _), State.getElem_set_sp, if_pos rfl]
    have hpop := State.pop_of_sp_eq_succ (s := u) (k := ⟨s.sp.val, hsp⟩) (by rw [husp])
    rw [htop] at hpop
    refine ⟨t, { u with sp := s.sp }, ?pushed, ?popped, rfl, ?slots, ?frame⟩
    case pushed => simp only [pushAll, hpush, hpushAll]
    case popped =>
      rw [List.length_cons, List.reverse_cons]
      exact popAll_succ hpopAll hpop
    case slots =>
      intro k hk
      rw [hslots k (Nat.lt_succ_of_lt hk), State.getElem_set_sp, if_neg (by omega)]
    case frame => exact ((s.changesOnly_withStack _ _).trans hframe).trans (u.changesOnly_withStack u.stk s.sp)

/-! ### CALL and RET -/

theorem instrFault_call_eq_none {nnn : Addr12} {s : State} : instrFault (.call nnn) s = none ↔ s.sp.val < 16 := by
  have := s.sp.isLt
  simp only [instrFault, ite_eq_right_iff, reduceCtorEq, imp_false]
  omega

theorem instrFault_ret_eq_none {s : State} : instrFault .ret s = none ↔ ∃ k : Fin 16, s.sp.val = k.val + 1 := by
  have := s.sp.isLt
  simp only [instrFault, ite_eq_right_iff, reduceCtorEq, imp_false]
  exact ⟨fun h => ⟨⟨s.sp.val - 1, by omega⟩, by simp only; omega⟩, fun ⟨k, hk⟩ => by omega⟩

theorem effect_call {s : State} (nnn : Addr12) (h : s.sp.val < 16) :
    effect (.call nnn) s = { s with
      stk := s.stk.set s.sp.val (s.pc + 2) h, sp := ⟨s.sp.val + 1, Nat.succ_lt_succ h⟩, pc := addrOperand nnn } := by
  rw [effect, s.push_eq_some _ h, Option.elim_some]

theorem effect_ret {s : State} {k : Fin 16} (h : s.sp.val = k.val + 1) :
    effect .ret s = { s with sp := k.castSucc, pc := s.stk[k] } := by
  rw [effect, State.pop_of_sp_eq_succ h, Option.elim_some]

theorem exec_call {s : State} (nnn : Addr12) (h : s.sp.val < 16) :
    exec (.call nnn) s = .next (effect (.call nnn) s) :=
  exec_of_instrFault_eq_none (instrFault_call_eq_none.2 h)

theorem exec_ret {s : State} {k : Fin 16} (h : s.sp.val = k.val + 1) : exec .ret s = .next (effect .ret s) :=
  exec_of_instrFault_eq_none (instrFault_ret_eq_none.2 ⟨k, h⟩)

/-- Settles O28: the push of `PC + 2`, and the zero-extended address as `PC`. -/
theorem callPushesAndJumps : Obligations.CallPushesAndJumps := by
  intro nnn s hsp
  refine ⟨_, exec_call nnn hsp, ?_⟩
  rw [effect_call nnn hsp]
  refine ⟨addrOperand_toNat nnn, rfl, Vector.getElem_set_self hsp, fun k hk => ?_,
    s.changesOnly_withStack_withPc _ _ _⟩
  rw [State.getElem_set_sp, if_neg hk]

/-- Settles O30: the pop of the slot below `SP` into `PC`. -/
theorem retPopsIntoPc : Obligations.RetPopsIntoPc := by
  intro s k hk
  refine ⟨_, exec_ret hk, ?_⟩
  rw [effect_ret hk]
  exact ⟨rfl, rfl, fun _ => rfl, s.changesOnly_withStack_withPc _ _ _⟩

/-- Settles O32: RET pops the slot that CALL filled. -/
theorem callThenRetReturns : Obligations.CallThenRetReturns := by
  intro nnn s hsp
  have hcall := exec_call nnn hsp
  rw [effect_call nnn hsp] at hcall
  refine ⟨_, _, hcall, exec_ret (k := ⟨s.sp.val, hsp⟩) rfl, ?_⟩
  rw [effect_ret (k := ⟨s.sp.val, hsp⟩) rfl]
  refine ⟨Vector.getElem_set_self hsp, rfl, fun k hk => ?_, s.changesOnly_withStack_withPc _ _ _⟩
  rw [State.getElem_set_sp, if_neg (by omega)]

/-! ### The stack faults (R252, R253) -/

theorem call_of_stackOverflow {i : Instr} {s : State} {w p : Word} (h : instrFault i s = some (.stackOverflow w p)) :
    ∃ nnn, i = .call nnn ∧ s.sp.val = 16 := by
  cases i with
  | call nnn =>
    simp only [instrFault] at h
    split_ifs at h with hsp
    exact ⟨nnn, rfl, hsp⟩
  | _ => simp [instrFault] at h

theorem ret_of_stackUnderflow {i : Instr} {s : State} {w p : Word} (h : instrFault i s = some (.stackUnderflow w p)) :
    i = .ret ∧ s.sp.val = 0 := by
  cases i with
  | ret =>
    simp only [instrFault] at h
    split_ifs at h with hsp
    exact ⟨rfl, hsp⟩
  | _ => simp [instrFault] at h

/-- Settles O29: the list of causes names `StackOverflow` for CALL at `SP = 16` and nowhere else. -/
theorem callOnAFullStackFaults : Obligations.CallOnAFullStackFaults := by
  refine ⟨fun nnn s hsp => ?_, fun i s w p h => call_of_stackOverflow (exec_eq_fault_iff.1 h)⟩
  have hexec : exec (.call nnn) s = .fault (.stackOverflow (encode (.call nnn)) s.pc) :=
    exec_eq_fault_iff.2 (if_pos hsp)
  rw [encode, wordNNN_eq_ofNat] at hexec
  exact ⟨hexec, stateAfter_of_eq_fault hexec⟩

/-- Settles O31: the list of causes names `StackUnderflow` for RET at `SP = 0` and nowhere else. -/
theorem retOnAnEmptyStackFaults : Obligations.RetOnAnEmptyStackFaults := by
  refine ⟨fun s hsp => ?_, fun i s w p h => ret_of_stackUnderflow (exec_eq_fault_iff.1 h)⟩
  have hexec : exec .ret s = .fault (.stackUnderflow 0x00EE s.pc) := exec_eq_fault_iff.2 (if_pos hsp)
  exact ⟨hexec, stateAfter_of_eq_fault hexec⟩

/-! ### JUMP+V0 -/

@[simp] theorem State.wideV_toNat (s : State) (x : Nibble) : (s.wideV x).toNat = (s.getV x).toNat :=
  BitVec.toNat_setWidth_of_le (by decide)

/-- The sum of a 12-bit address and a byte does not wrap. -/
theorem addrOperand_add_wideV_toNat (nnn : Addr12) (s : State) (x : Nibble) :
    (addrOperand nnn + s.wideV x).toNat = nnn.toNat + (s.getV x).toNat := by
  have := nnn.isLt
  have := (s.getV x).isLt
  rw [BitVec.toNat_add, addrOperand_toNat, State.wideV_toNat]
  omega

/-- Settles O27: the meaning assigns the sum, which 16 bits hold. -/
theorem jumpPlusV0AddsV0 : Obligations.JumpPlusV0AddsV0 := by
  intro nnn s
  exact ⟨_, exec_of_instrFault_eq_none rfl, addrOperand_add_wideV_toNat nnn s 0, s.changesOnly_withPc _⟩

end Sys2Proof.Machine
end

section
/-! The frame of every instruction (10_state.md R12 to R26): which fields it leaves as they are. -/

namespace Sys2Proof.Machine

/-- `t` has the fields of `s` outside the parts named: `changesOnly` with memory, stack, registers and display equal as
data. -/
structure State.keepsFields (s t : State) (parts : List Part) : Prop where
  regs : Part.regs ∉ parts → t.v = s.v
  index : Part.index ∉ parts → t.i = s.i
  pc : Part.pc ∉ parts → t.pc = s.pc
  stack : Part.stack ∉ parts → t.sp = s.sp ∧ t.stk = s.stk
  delay : Part.delayTimer ∉ parts → t.dt = s.dt
  sound : Part.soundTimer ∉ parts → t.st = s.st
  memory : Part.memory ∉ parts → t.mem = s.mem
  display : Part.display ∉ parts → t.fb = s.fb
  cfg : t.cfg = s.cfg
  pending : t.pending = s.pending
  drawn : t.drawn = s.drawn

theorem State.keepsFields.changesOnly {s t : State} {parts : List Part} (h : s.keepsFields t parts) :
    s.changesOnly t parts :=
  State.changesOnly_of_fields parts h.regs h.index h.pc h.stack h.delay h.sound h.memory h.display h.cfg h.pending
    h.drawn

/-- The effect of an instruction keeps every field outside its written parts. -/
theorem effect_keepsFields (i : Instr) (s : State) : s.keepsFields (effect i s) (writtenParts i) := by
  cases i with
  | ret =>
    rw [effect]
    rcases hp : s.pop with _ | ⟨a, t⟩
    · constructor <;> simp
    · obtain ⟨k, -, -, rfl⟩ := State.pop_eq_some_iff hp
      constructor <;> simp [writtenParts]
  | call nnn =>
    rw [effect]
    rcases hp : s.push (s.pc + 2) with _ | t
    · constructor <;> simp
    · obtain ⟨lt, rfl⟩ := State.push_eq_some_iff hp
      constructor <;> simp [writtenParts]
  | key x =>
    rw [effect]
    cases lowestKey s.keys <;> constructor <;> simp [writtenParts]
  | _ => constructor <;> simp [effect, writtenParts]

theorem exec_keepsFields {i : Instr} {s t : State} (h : exec i s = .next t) : s.keepsFields t (writtenParts i) := by
  obtain ⟨-, rfl⟩ := exec_eq_next_iff.1 h
  exact effect_keepsFields i s

/-- Settles O22: fields that are equal as data read the same. -/
theorem instructionsWriteOnlyTheirParts : Obligations.InstructionsWriteOnlyTheirParts := fun _ _ _ h =>
  (exec_keepsFields h).changesOnly

/-- Settles O25: no instruction writes the configuration, and neither does the end of a step. -/
theorem configurationNeverChanges : Obligations.ConfigurationNeverChanges := by
  intro s t h
  obtain ⟨w, i, u, -, -, he, rfl⟩ := step_eq_next h
  rw [State.takeInput_cfg, State.tick_cfg, (exec_keepsFields he).cfg]

/-- Settles O23: where the registers are a written part, a write to one of them keeps the others. -/
theorem instructionsWriteOnlyTheirRegisters : Obligations.InstructionsWriteOnlyTheirRegisters := by
  intro i s t r h hr
  obtain ⟨-, rfl⟩ := exec_eq_next_iff.1 h
  cases i with
  | mvi x _ | adi x _ | movVxDt x => exact State.getV_setV_of_ne _ _ _ _ (ne_of_beq_false hr)
  | mov x _ | or x _ | and x _ | xor x _ | rndmsk x _ =>
    exact (State.getV_aluStep_noFlag _ _ _ _ _ _ rfl).trans (if_neg (ne_of_beq_false hr))
  | add x _ | sub x _ | shr x _ | subn x _ | shl x _ =>
    obtain ⟨hx, hvf⟩ := Bool.or_eq_false_iff.1 hr
    rw [effect, State.getV_aluStep_flag _ _ _ _ _ _ _ rfl, if_neg (ne_of_beq_false hvf), if_neg (ne_of_beq_false hx)]
  | draw x y n => exact State.getV_setFlag_of_ne _ _ _ (ne_of_beq_false hr)
  | key x =>
    rw [effect]
    cases lowestKey s.keys with
    | none => rfl
    | some k => exact State.getV_setV_of_ne _ _ _ _ (ne_of_beq_false hr)
  | movmLoad x => rw [effect, State.getV_advance, State.getV_loadRegs, if_neg (of_decide_eq_false hr)]
  | _ => exact State.getV_congr ((effect_keepsFields _ s).regs (by simp [writtenParts])) r

/-! ### The program counter -/

theorem State.skipIf_pc_cases (s : State) (c : Bool) : (s.skipIf c).pc = s.pc + 2 ∨ (s.skipIf c).pc = s.pc + 4 := by
  cases c
  · exact .inl rfl
  · exact .inr rfl

/-- Settles O24: what is not a transfer, a skip or a wait ends with `advance`. -/
theorem pcAfterEveryInstruction : Obligations.PcAfterEveryInstruction := by
  intro i s t h
  obtain ⟨hno, rfl⟩ := exec_eq_next_iff.1 h
  cases i with
  | jump nnn => exact addrOperand_toNat nnn
  | call nnn =>
    rw [instrFault_call_eq_none] at hno
    simp only [effect_call nnn hno, addrOperand_toNat]
  | jumpV0 nnn => exact addrOperand_add_wideV_toNat nnn s 0
  | ret =>
    obtain ⟨k, hk⟩ := instrFault_ret_eq_none.1 hno
    exact ⟨k, hk, by rw [effect_ret hk]⟩
  | skipEqImm _ _ | skipNeImm _ _ | skipEqReg _ _ | skipNeReg _ _ | skipKeyY _ | skipKeyN _ =>
    exact s.skipIf_pc_cases _
  | key x =>
    simp only [effect]
    cases lowestKey s.keys with
    | none => exact .inl rfl
    | some k => exact .inr rfl
  | _ => simp [effect]

/-! ### The timers -/

/-- Settles O20: only Fx15 and Fx18 have a timer among their parts, and the tick follows the write. -/
theorem timersTickOnceAStep : Obligations.TimersTickOnceAStep := by
  intro s t h
  obtain ⟨w, i, u, hf, hd, he, rfl⟩ := step_eq_next h
  obtain ⟨-, rfl⟩ := exec_eq_next_iff.1 he
  have hkeeps := effect_keepsFields i s
  refine ⟨w, i, hf, hd, ?_, ?_⟩
  · rw [State.takeInput_dt, State.tick_dt, tickTimer_toNat]
    cases i with
    | movDtVx x => rfl
    | _ => rw [hkeeps.delay (by simp [writtenParts])]
  · rw [State.takeInput_st, State.tick_st, tickTimer_toNat]
    cases i with
    | movStVx x => rfl
    | _ => rw [hkeeps.sound (by simp [writtenParts])]

end Sys2Proof.Machine
end

section
/-! The sound timer is read by no instruction (44_timer.md R193). -/

namespace Sys2Proof.Machine

theorem instrFault_withSt (i : Instr) (s : State) (b : Byte) : instrFault i { s with st := b } = instrFault i s := by
  cases i <;> rfl

theorem State.writeBytes_withSt (s : State) (b : Byte) (a : Nat) (bs : List Byte) :
    State.writeBytes { s with st := b } a bs = { s.writeBytes a bs with st := b } := by
  induction bs generalizing s a with
  | nil => rfl
  | cons c bs ih => exact ih (s.writeByte a c) (a + 1)

/-- Every effect but that of Fx18 is the same with another `ST`, and leaves that `ST`. -/
theorem effect_withSt {i : Instr} {s : State} (b : Byte) (hno : instrFault i s = none) (hst : ∀ x, i ≠ .movStVx x) :
    effect i { s with st := b } = { effect i s with st := b } := by
  cases i with
  | movStVx x => exact absurd rfl (hst x)
  | call nnn =>
    rw [instrFault_call_eq_none] at hno
    rw [effect_call nnn hno, effect_call nnn (s := { s with st := b }) hno]
  | ret =>
    obtain ⟨k, hk⟩ := instrFault_ret_eq_none.1 hno
    rw [effect_ret hk, effect_ret (s := { s with st := b }) hk]
  | key x =>
    simp only [effect]
    cases hk : lowestKey s.keys <;> rw [show lowestKey (State.keys { s with st := b }) = _ from hk] <;> rfl
  | movBcd x => exact congrArg State.advance (s.writeBytes_withSt b _ _)
  | movmStore x => exact congrArg State.advance (s.writeBytes_withSt b _ _)
  | _ => rfl

/-- Settles O21: the causes of a fault do not read `ST`, and the effects carry it along. -/
theorem soundTimerIsNeverRead : Obligations.SoundTimerIsNeverRead := by
  intro i s b
  simp only [exec_eq_fault_iff, exec_eq_next_iff, instrFault_withSt]
  refine ⟨fun _ h => h, fun t ⟨hno, ht⟩ => ⟨hno, ?_⟩⟩
  subst ht
  cases i with
  | movStVx x => rfl
  | _ => exact effect_withSt b hno (by simp)

end Sys2Proof.Machine
end

section
/-! The invariant of a run: at reset, after a launch, over a step (10_state.md R18, R30; 20_memory.md R40). -/

namespace Sys2Proof.Machine

/-- The invariant reads memory, the configuration, `PC` and the stack alone. -/
theorem State.Inv.congr {s t : State} (h : s.Inv) (hmem : t.mem = s.mem) (hcfg : t.cfg = s.cfg) (hpc : t.pc = s.pc)
    (hsp : t.sp = s.sp) (hstk : t.stk = s.stk) : t.Inv := by
  obtain ⟨hwf, hbound, hreturns⟩ := h
  refine ⟨?_, ?_, ?_⟩
  · rwa [hmem, hcfg]
  · rwa [hpc]
  · rwa [hsp, hstk]

/-! ### Reset and launch -/

theorem State.inv_resetWith (c : Config) : (State.resetWith c).Inv :=
  ⟨State.memory_wf_resetWith c, (by decide : (0x0200 : Word).toNat ≤ 0x10FE), fun _ hk => absurd hk (Nat.not_lt_zero _)⟩

/-- Settles O9: `State.reset` is the reset of the default configuration. -/
theorem resetMeetsTheInvariant : Obligations.ResetMeetsTheInvariant := State.inv_resetWith _

/-- Stored bytes in range keep the invariant. -/
theorem State.Inv.writeBytes {s : State} (h : s.Inv) {a : Nat} {bs : List Byte} (hb : a + bs.length ≤ memTop + 1) :
    (s.writeBytes a bs).Inv := by
  obtain ⟨hwf, hbound, hreturns⟩ := h
  refine ⟨?_, ?_, ?_⟩
  · rw [State.writeBytes_cfg]
    exact s.wf_writeBytes a bs hwf hb
  · rwa [State.writeBytes_pc]
  · rwa [State.writeBytes_sp, State.writeBytes_stk]

/-- Settles O10: a launch that is not refused stores the padded ROM, which fits, over the reset state. -/
theorem launchMeetsTheInvariant : Obligations.LaunchMeetsTheInvariant := by
  intro c rom t h
  rw [launch_eq] at h
  split_ifs at h with hc hfits
  cases h
  refine (State.inv_resetWith c).writeBytes ?_
  rw [paddedRom_length]
  have := of_decide_eq_true hfits
  simp only [memTop]
  omega

/-- Settles O8: an empty memory list reads as the font and 0x00, and a running machine's reset differs from it in the
inputs of the coming steps alone. -/
theorem resetValues : Obligations.ResetValues := by
  refine ⟨fun c => ⟨fun x => ?_, rfl, rfl, rfl, fun k => ?_, rfl, rfl, fun k hk => resetByte_font c hk,
    fun a ha => resetByte_of_not_font ha, fun r k => Display.cell_clear r k, rfl⟩, rfl, rfl, fun s q p => ⟨?_, rfl⟩⟩
  · simp [State.getV, State.resetWith]
  · simp [State.resetWith]
  · cases p with
    | regs | memory => exact fun _ => rfl
    | display => exact fun _ _ => rfl
    | stack => exact ⟨rfl, fun _ => rfl⟩
    | index | pc | delayTimer | soundTimer => rfl

/-! ### A step -/

/-- An instruction in range leaves memory canonical: MOVBCD and the MOVM store alone write it, in the checked range. -/
theorem effect_memory_wf {i : Instr} {s : State} (h : Memory.wf s.cfg s.mem) (hno : instrFault i s = none) :
    Memory.wf (effect i s).cfg (effect i s).mem := by
  have hkeeps := effect_keepsFields i s
  rw [hkeeps.cfg]
  cases i with
  | movBcd x =>
    simp only [instrFault, ite_eq_right_iff, reduceCtorEq, imp_false] at hno
    exact s.wf_writeBytes _ _ h (by rw [bcdDigits_length, memTop]; omega)
  | movmStore x =>
    simp only [instrFault, ite_eq_right_iff, reduceCtorEq, imp_false] at hno
    exact s.wf_writeBytes _ _ h (by rw [State.firstRegs_length, memTop]; omega)
  | _ => rwa [hkeeps.memory (by simp [writtenParts])]

theorem pc_add_two_toNat {p : Word} (h : p.toNat ≤ 0xFFE) : (p + 2).toNat = p.toNat + 2 := by bv_omega

theorem pc_add_four_toNat {p : Word} (h : p.toNat ≤ 0xFFE) : (p + 4).toNat = p.toNat + 4 := by bv_omega

/-- `PC` after an instruction that was fetched: JUMP+V0 goes farthest (R18). -/
theorem pc_le_of_exec {i : Instr} {s t : State} (hpc : s.pc.toNat ≤ 0xFFE)
    (hreturns : ∀ k : Fin 16, k.val < s.sp.val → (s.stk[k]).toNat ≤ 0x1000) (h : exec i s = .next t) :
    t.pc.toNat ≤ 0x10FE := by
  have htwo := pc_add_two_toNat hpc
  have hfour := pc_add_four_toNat hpc
  have hafter := pcAfterEveryInstruction i s t h
  cases i with
  | jump nnn | call nnn =>
    have := nnn.isLt
    simp only at hafter
    omega
  | jumpV0 nnn =>
    have := nnn.isLt
    have := (s.getV 0).isLt
    simp only at hafter
    omega
  | ret =>
    obtain ⟨k, hk, hpop⟩ := hafter
    have := hreturns k (by omega)
    rw [hpop]
    omega
  | skipEqImm _ _ | skipNeImm _ _ | skipEqReg _ _ | skipNeReg _ _ | skipKeyY _ | skipKeyN _ | key _ =>
    rcases hafter with hafter | hafter <;> rw [hafter] <;> omega
  | _ =>
    simp only at hafter
    rw [hafter]
    omega

/-- Live return addresses after an instruction that was fetched: CALL pushes one more, `PC + 2`. -/
theorem effect_returns_le {i : Instr} {s : State} (hpc : s.pc.toNat ≤ 0xFFE)
    (hreturns : ∀ k : Fin 16, k.val < s.sp.val → (s.stk[k]).toNat ≤ 0x1000) (hno : instrFault i s = none)
    (k : Fin 16) (hk : k.val < (effect i s).sp.val) : ((effect i s).stk[k]).toNat ≤ 0x1000 := by
  have hkeeps := effect_keepsFields i s
  cases i with
  | call nnn =>
    rw [instrFault_call_eq_none] at hno
    rw [effect_call nnn hno] at hk ⊢
    simp only at hk ⊢
    rw [State.getElem_set_sp]
    split_ifs with htop
    · rw [pc_add_two_toNat hpc]; omega
    · exact hreturns k (by omega)
  | ret =>
    obtain ⟨j, hj⟩ := instrFault_ret_eq_none.1 hno
    rw [effect_ret hj] at hk ⊢
    simp only [Fin.val_castSucc] at hk ⊢
    exact hreturns k (by omega)
  | _ =>
    obtain ⟨hsp, hstk⟩ := hkeeps.stack (by simp [writtenParts])
    rw [hsp] at hk
    rw [hstk]
    exact hreturns k hk

/-- Settles O11: the fetch bounds the old `PC`, the instruction keeps each of the three bounds, and the end of the step
touches none of them. -/
theorem stepKeepsTheInvariant : Obligations.StepKeepsTheInvariant := by
  intro s t hinv h
  obtain ⟨hwf, -, hreturns⟩ := hinv
  obtain ⟨w, i, u, hf, -, he, rfl⟩ := step_eq_next h
  have hpc := State.pc_le_of_fetch hf
  have hbound := pc_le_of_exec hpc hreturns he
  obtain ⟨hno, rfl⟩ := exec_eq_next_iff.1 he
  have hu : (effect i s).Inv := ⟨effect_memory_wf hwf hno, hbound, effect_returns_le hpc hreturns hno⟩
  exact hu.congr (by simp) (by simp) (by simp) (by simp) (by simp)

end Sys2Proof.Machine
end

section
/-! The ALU instructions (41_alu.md R123 to R132; 50_blocks_and_interfaces.md R204). -/

namespace Sys2Proof.Machine

/-! ### Without a flag -/

/-- Settles O38: the word is the encoder's, and the ALU passes `V[y]` through to `V[x]`. -/
theorem movCopiesTheRegister : Obligations.MovCopiesTheRegister := by
  intro x y s
  have hdecode := (Laws.RoundTrip.mov x y).decode_ofNat (wordXYN_eq_ofNat 8 x y 0)
  exact ⟨hdecode, completes_of_exec_eq_setV_advance rfl⟩

/-- Settles O39: each is a write of the bitwise result to `V[x]`. -/
theorem bitwiseOperations : Obligations.BitwiseOperations := fun _ _ _ =>
  ⟨completes_of_exec_eq_setV_advance rfl, completes_of_exec_eq_setV_advance rfl, completes_of_exec_eq_setV_advance rfl⟩

/-- Settles O46: a write of the masked byte to `V[x]`. -/
theorem rndmskMasksTheSuppliedByte : Obligations.RndmskMasksTheSuppliedByte := by
  intro x nn s
  obtain ⟨t, he, hresult, hothers, hpc, hframe⟩ := completes_of_exec_eq_setV_advance (i := .rndmsk x nn) (s := s) rfl
  exact ⟨t, he, hresult, hothers, hpc, hframe, s.withInput_rnd⟩

/-! ### With a flag -/

theorem State.changesOnly_aluStep (s : State) (op : AluOp) (x : Nibble) (a b : Byte) :
    s.changesOnly (s.aluStep op x a b) [.regs, .pc] := by
  apply State.changesOnly_of_fields <;> simp

/-- What every instruction does that writes a result and a flag: VF gets the flag, also when it is the destination
(R15, D10), any other destination the result, the other registers are kept, `PC + 2`, and nothing else. -/
theorem completes_of_exec_eq_aluStep {i : Instr} {s : State} {op : AluOp} {x : Nibble} {a b : Byte} {f : Bool}
    (he : exec i s = .next (s.aluStep op x a b)) (hf : (alu op a b).f = some f) :
    ∃ t, exec i s = .next t ∧ t.getV 15 = (if f then 1 else 0) ∧ (x ≠ 15 → t.getV x = (alu op a b).r) ∧
      (∀ r, r ≠ x → r ≠ 15 → t.getV r = s.getV r) ∧ t.pc = s.pc + 2 ∧ s.changesOnly t [.regs, .pc] := by
  have hregs := fun r => s.getV_aluStep_flag op x r a b f hf
  refine ⟨_, he, ?_, fun hx => ?_, fun r hx hvf => ?_, s.aluStep_pc op x a b, s.changesOnly_aluStep op x a b⟩
  · rw [hregs, if_pos rfl]
  · rw [hregs, if_neg hx, if_pos rfl]
  · rw [hregs, if_neg hvf, if_neg hx]

theorem byte_sub_toNat (a b : Byte) : (a - b).toNat = (a.toNat + 256 - b.toNat) % 256 := by
  have := b.isLt
  rw [BitVec.toNat_sub]
  omega

theorem flag_toNat (f : Bool) : (if f then 1 else 0 : Byte).toNat = f.toNat := by
  cases f <;> rfl

/-- Settles O40: the ALU's sum modulo 256 and its carry out. -/
theorem addSetsTheCarry : Obligations.AddSetsTheCarry := by
  intro x y s
  obtain ⟨t, he, hflag, hresult, hframe⟩ := completes_of_exec_eq_aluStep (i := .add x y) (s := s) rfl rfl
  simp only [carryOut, decide_eq_true_eq] at hflag
  exact ⟨t, he, hflag, fun hx => by rw [hresult hx, alu_add_r_toNat], hframe⟩

/-- Settles O41: the ALU's difference modulo 256 and its not-borrow. -/
theorem subSetsTheNotBorrow : Obligations.SubSetsTheNotBorrow := by
  intro x y s
  obtain ⟨t, he, hflag, hresult, hframe⟩ := completes_of_exec_eq_aluStep (i := .sub x y) (s := s) rfl rfl
  simp only [notBorrow, decide_eq_true_eq] at hflag
  exact ⟨t, he, hflag, fun hx => by rw [hresult hx, alu, byte_sub_toNat], hframe⟩

/-- Settles O42: as for SUB., with the operands exchanged. -/
theorem subnSetsTheNotBorrow : Obligations.SubnSetsTheNotBorrow := by
  intro x y s
  obtain ⟨t, he, hflag, hresult, hframe⟩ := completes_of_exec_eq_aluStep (i := .subn x y) (s := s) rfl rfl
  simp only [notBorrow, decide_eq_true_eq] at hflag
  exact ⟨t, he, hflag, fun hx => by rw [hresult hx, alu, byte_sub_toNat], hframe⟩

/-- Settles O43: the operand is `shiftOperand`, for both values of the quirk. -/
theorem shrHalvesItsOperand : Obligations.ShrHalvesItsOperand := by
  rintro x y s v rfl
  obtain ⟨t, he, hflag, hresult, hframe⟩ := completes_of_exec_eq_aluStep (i := .shr x y) (s := s) rfl rfl
  refine ⟨t, he, ?_, fun hx => ?_, hframe⟩
  · rw [hflag, flag_toNat, BitVec.getLsbD, Nat.toNat_testBit, pow_zero, Nat.div_one]; rfl
  · rw [hresult hx, alu, BitVec.toNat_ushiftRight, Nat.shiftRight_eq_div_pow]; rfl

/-- Settles O44: the operand is `shiftOperand`, for both values of the quirk. -/
theorem shlDoublesItsOperand : Obligations.ShlDoublesItsOperand := by
  rintro x y s v rfl
  obtain ⟨t, he, hflag, hresult, hframe⟩ := completes_of_exec_eq_aluStep (i := .shl x y) (s := s) rfl rfl
  refine ⟨t, he, ?_, fun hx => ?_, hframe⟩
  · have := (s.shiftOperand x y).isLt
    rw [hflag, flag_toNat, BitVec.getLsbD, Nat.toNat_testBit, Nat.mod_eq_of_lt (by omega)]; rfl
  · rw [hresult hx, alu, BitVec.toNat_shiftLeft, Nat.shiftLeft_eq]; rfl

/-! ### The operation of a class 8 word -/

/-- The class 8 instruction that uses an operation of the ALU (R204). -/
def aluInstr : AluOp → Nibble → Nibble → Instr
  | .passB => .mov
  | .or => .or
  | .and => .and
  | .xor => .xor
  | .add => .add
  | .sub => .sub
  | .shr => .shr
  | .subn => .subn
  | .shl => .shl

theorem encode_aluInstr (op : AluOp) (x y : Nibble) : encode (aluInstr op x y) = wordXYN 0x8 x y op.code := by
  cases op <;> rfl

theorem exec_aluInstr (op : AluOp) (x y : Nibble) (s : State) :
    exec (aluInstr op x y) s = .next (s.aluStep op x
      (if op = .shr ∨ op = .shl then s.shiftOperand x y else s.getV x) (s.getV y)) := by
  cases op <;> rfl

theorem AluOp.ofCode_eq_some_iff (n : Nibble) (op : AluOp) : AluOp.ofCode n = some op ↔ op.code = n := by
  constructor
  · intro h
    have hfound := List.find?_some h
    exact of_decide_eq_true hfound
  · rintro rfl
    cases op <;> rfl

/-- Settles O45: a class 8 word with the code of an operation is the encoding of that operation's instruction. -/
theorem aluCodeIsTheFunctionNibble : Obligations.AluCodeIsTheFunctionNibble := by
  refine ⟨fun op x y s i hdecode => ?_, AluOp.ofCode_eq_some_iff, fun op a b => ?_⟩
  · rw [show 0x8000 = (0x8 : Nibble).toNat * 4096 from rfl, ← wordXYN_eq_ofNat, ← encode_aluInstr,
      decode_encode] at hdecode
    cases hdecode
    exact exec_aluInstr op x y s
  · cases op <;> simp [alu, AluOp.code]

end Sys2Proof.Machine
end

section
/-! Index register and memory (42_index_memory.md R151 to R155; 20_memory.md R55). -/

namespace Sys2Proof.Machine

/-- The range and index faults: the record holds the instruction's word as a number (R254, R257). -/
theorem exec_indexOutOfRange {i : Instr} {s : State} {w : Word} {info : BitVec 17} {P : Prop} [Decidable P]
    (hlisted : instrFault i s = if P then some (.indexOutOfRange (encode i) s.pc info) else none) (hP : P)
    (hw : encode i = w) : exec i s = .fault (.indexOutOfRange w s.pc info) := by
  rw [exec_eq_fault_iff, hlisted, if_pos hP, hw]

/-! ### The index register -/

/-- Settles O48: the 16-bit sum wraps. -/
theorem adiIAddsTheRegister : Obligations.AdiIAddsTheRegister := by
  intro x s
  refine ⟨_, exec_of_instrFault_eq_none rfl, ?_, rfl, s.changesOnly_withI_advance _⟩
  exact (BitVec.toNat_add ..).trans (by rw [State.wideV_toNat])

/-- A glyph's address does not wrap. -/
theorem glyphAddress_toNat (c : Config) {d : Byte} (hd : d.toNat ≤ 15) :
    (glyphAddress c d).toNat = c.fontBase.toNat + 5 * d.toNat := by
  have := c.fontBase.isLt
  rw [glyphAddress, fontStride, BitVec.toNat_ofNat]
  omega

/-- Settles O49: the guard on the digit, and a glyph address that 16 bits hold. -/
theorem spriteCharPointsAtTheGlyph : Obligations.SpriteCharPointsAtTheGlyph := by
  intro x s
  refine ⟨fun hdigit => ?_, fun habove => exec_indexOutOfRange rfl habove (wordXNN_eq_ofNat_base_add rfl x)⟩
  exact ⟨_, exec_of_instrFault_eq_none (if_neg (by omega)), glyphAddress_toNat s.cfg hdigit, rfl,
    s.changesOnly_withI_advance _⟩

/-! ### Stores -/

theorem State.changesOnly_writeBytes_advance (s : State) (a : Nat) (bs : List Byte) :
    s.changesOnly (s.writeBytes a bs).advance [.memory, .pc] := by
  apply State.changesOnly_of_fields <;> simp

theorem State.writeBytes_advance_pc (s : State) (a : Nat) (bs : List Byte) :
    (s.writeBytes a bs).advance.pc = s.pc + 2 := by
  rw [State.advance_pc, State.writeBytes_pc]

/-- A stored byte is read back (R45). -/
theorem State.readByte_writeBytes_at (s : State) (a : Nat) {bs : List Byte} {k : Nat} (hk : k < bs.length) :
    (s.writeBytes a bs).readByte (a + k) = bs.getD k 0 := by
  rw [State.readByte_writeBytes, if_pos (by omega), Nat.add_sub_cancel_left]

/-- A store leaves every other byte alone. -/
theorem State.readByte_writeBytes_outside (s : State) {a r : Nat} {bs : List Byte}
    (h : r < a ∨ a + bs.length ≤ r) : (s.writeBytes a bs).readByte r = s.readByte r := by
  rw [State.readByte_writeBytes, if_neg (by omega)]

theorem bcdDigits_toNat (v : Byte) :
    ((bcdDigits v).getD 0 0).toNat = v.toNat / 100 ∧ ((bcdDigits v).getD 1 0).toNat = v.toNat / 10 % 10 ∧
      ((bcdDigits v).getD 2 0).toNat = v.toNat % 10 := by
  have := v.isLt
  simp only [bcdDigits, List.getD_cons_zero, List.getD_cons_succ, BitVec.toNat_ofNat]
  omega

/-- Settles O50: the three digits are stored in sequence. -/
theorem movBcdStoresTheDigits : Obligations.MovBcdStoresTheDigits := by
  intro x s
  refine ⟨fun hrange => ?_, fun habove => exec_indexOutOfRange rfl habove (wordXNN_eq_ofNat_base_add rfl x)⟩
  obtain ⟨hundreds, tens, ones⟩ := bcdDigits_toNat (s.getV x)
  have hread {k : Nat} (hk : k < 3) := s.readByte_writeBytes_at s.i.toNat (bs := bcdDigits (s.getV x)) hk
  refine ⟨_, exec_of_instrFault_eq_none (if_neg (by omega)), ?_, ?_, ?_, fun a ha => ?_, s.writeBytes_advance_pc _ _,
    s.changesOnly_writeBytes_advance _ _⟩
  · exact (congrArg BitVec.toNat (hread (k := 0) (by omega))).trans hundreds
  · exact (congrArg BitVec.toNat (hread (k := 1) (by omega))).trans tens
  · exact (congrArg BitVec.toNat (hread (k := 2) (by omega))).trans ones
  · exact s.readByte_writeBytes_outside ha

/-- Settles O51: the registers up to `V[x]` are stored in sequence. -/
theorem movmStoresTheRegisters : Obligations.MovmStoresTheRegisters := by
  intro x s
  refine ⟨fun hrange => ?_, fun habove => exec_indexOutOfRange rfl habove (wordXNN_eq_ofNat_base_add rfl x)⟩
  have hlength := s.firstRegs_length x
  refine ⟨_, exec_of_instrFault_eq_none (if_neg (by omega)), fun r hr => ?_, fun a ha => ?_,
    s.writeBytes_advance_pc _ _, s.changesOnly_writeBytes_advance _ _⟩
  · exact (s.readByte_writeBytes_at _ (by omega)).trans (s.firstRegs_getD x r hr)
  · exact s.readByte_writeBytes_outside (by omega)

/-- Settles O53: the store left the two registers at `p` and `p + 1`, and the fetch reads memory. -/
theorem storedBytesAreFetchedAtOnce : Obligations.StoredBytesAreFetchedAtOnce := by
  intro x r r' s t p h hr' hx hp
  have hrange : s.i.toNat + x.toNat ≤ 0xFFF := by
    by_contra habove
    rw [(movmStoresTheRegisters x s).2 (by omega)] at h
    cases h
  obtain ⟨u, hu, hstored, -⟩ := (movmStoresTheRegisters x s).1 hrange
  obtain rfl : u = t := Host.Outcome.next.inj (hu.symm.trans h)
  have hhigh := hstored r (by omega)
  have hlow := hstored r' hx
  rw [State.fetch_ok (show p.toNat ≤ 0xFFE by omega)]
  simp only [State.readByte_withPc]
  rw [hp, hhigh, Nat.add_assoc, ← hr', hlow]

/-! ### The load -/

theorem State.changesOnly_loadRegs_advance (s : State) (x : Nibble) (a : Nat) :
    s.changesOnly (s.loadRegs x a).advance [.regs, .pc] := by
  apply State.changesOnly_of_fields <;> simp

/-- Settles O52: the guard on the range, and the registers after `loadRegs`. -/
theorem movmLoadsTheRegisters : Obligations.MovmLoadsTheRegisters := by
  intro x s
  refine ⟨fun hrange => ?_, fun habove => exec_indexOutOfRange rfl habove (wordXNN_eq_ofNat_base_add rfl x)⟩
  have hexec : exec (.movmLoad x) s = .next (s.loadRegs x s.i.toNat).advance :=
    exec_of_instrFault_eq_none (if_neg (by omega))
  exact ⟨_, hexec, fun r => by rw [State.getV_advance, State.getV_loadRegs], rfl, s.changesOnly_loadRegs_advance _ _⟩

end Sys2Proof.Machine
end

section
/-! Display, keypad and timer instructions (43_display_keypad.md R171 to R174, 44_timer.md R191, R192). -/

namespace Sys2Proof.Machine

/-! ### DRAW -/

theorem State.readBytes_length (s : State) (a n : Nat) : (s.readBytes a n).length = n := by
  rw [State.readBytes, List.length_map, List.length_range]

/-- The display after DRAW in closed form (R171). -/
theorem drawResult_cell (x y n : Nibble) (s : State) (r : Fin 32) (c : Fin 64) :
    (drawResult x y n s).1.cell r c =
      (s.fb.cell r c ^^ spriteCovers (s.getV x).toNat (s.getV y).toNat (s.readBytes s.i.toNat n.toNat) r c) := by
  have := n.isLt
  rw [drawResult, drawSprite_cell _ _ _ (by rw [State.readBytes_length]; omega), spriteCovers_mod]

/-- The collision of DRAW in closed form (R171). -/
theorem drawResult_hit (x y n : Nibble) (s : State) :
    (drawResult x y n s).2 = true ↔ ∃ r c,
      spriteCovers (s.getV x).toNat (s.getV y).toNat (s.readBytes s.i.toNat n.toNat) r c = true ∧
        s.fb.cell r c = true := by
  have := n.isLt
  rw [drawResult, drawSprite_hit _ _ _ (by rw [State.readBytes_length]; omega)]
  simp only [spriteCovers_mod, Bool.false_eq_true, false_or]

theorem State.changesOnly_withFb_setFlag_advance (s : State) (fb : Display) (f : Bool) :
    s.changesOnly (({ s with fb := fb } : State).setFlag f).advance [.regs, .display, .pc] := by
  apply State.changesOnly_of_fields <;> simp

/-- A flag register is 1 exactly when the flag is set (R14). -/
theorem flag_eq_one_iff (f : Bool) : (if f then 1 else 0 : Byte) = 1 ↔ f = true := by
  cases f <;> decide

/-- Settles O55: the display and the collision bit are `drawResult`, whose loop has a closed form. -/
theorem drawXorsTheSprite : Obligations.DrawXorsTheSprite := by
  rintro x y n s covered rfl
  refine ⟨fun hrange => ?completes, fun hn habove => ?faults⟩
  case completes =>
    have hno : ¬(1 ≤ n.toNat ∧ 0xFFF < s.i.toNat + n.toNat - 1) := by
      rcases hrange with rfl | hrange
      · simp
      · omega
    have hvf := ({ s with fb := (drawResult x y n s).1 } : State).getV_setFlag_same (drawResult x y n s).2
    refine ⟨_, exec_of_instrFault_eq_none (if_neg hno), drawResult_cell x y n s, ?_, ?_,
      fun r hr => State.getV_setFlag_of_ne _ _ r hr, rfl, s.changesOnly_withFb_setFlag_advance _ _⟩
    · simp only [effect, State.getV_advance, hvf]
      cases (drawResult x y n s).2
      · exact .inl rfl
      · exact .inr rfl
    · simp only [effect, State.getV_advance, hvf, flag_eq_one_iff]
      exact drawResult_hit x y n s
  case faults =>
    have hrows : n.toNat ≠ 0 := fun h => hn (BitVec.eq_of_toNat_eq h)
    exact exec_indexOutOfRange rfl ⟨by omega, habove⟩ (wordXYN_eq_ofNat 0xD x y n)

/-- Settles O56: the first DRAW keeps what the sprite is made of, so that the second XORs the same cells again. -/
theorem drawTwiceRestoresTheDisplay : Obligations.DrawTwiceRestoresTheDisplay := by
  intro x y n s hx hy hrange
  obtain ⟨t, ht, hcells, -, -, hregs, -, hframe⟩ := (drawXorsTheSprite x y n s _ rfl).1 hrange
  have hi : t.i = s.i := hframe.agrees .index (by decide)
  have hmem : ∀ a, t.readByte a = s.readByte a := hframe.agrees .memory (by decide)
  obtain ⟨u, hu, hcells', -, hvf', -⟩ := (drawXorsTheSprite x y n t _ rfl).1 (hi ▸ hrange)
  rw [hregs x hx, hregs y hy, hi] at hcells' hvf'
  simp only [hmem] at hcells' hvf'
  refine ⟨t, u, ht, hu, fun r c => ?_, ?_⟩
  · rw [hcells', hcells, Bool.xor_assoc, Bool.xor_self, Bool.xor_false]
  · simp only [hvf', hcells]
    refine exists_congr fun r => exists_congr fun c => ?_
    cases s.fb.cell r c <;> simp

/-! ### The keypad -/

/-- Settles O57: both skips are guarded by the index and test the sampled key. -/
theorem keySkips : Obligations.KeySkips := by
  intro x s
  refine ⟨fun hkey => ⟨?_, ?_⟩, fun habove => ⟨?_, ?_⟩, s.withInput_keys⟩
  · exact completes_of_exec_eq_skipIf (exec_of_instrFault_eq_none (if_neg (by omega))) Iff.rfl
  · exact completes_of_exec_eq_skipIf (exec_of_instrFault_eq_none (if_neg (by omega))) (Bool.not_eq_true' _).to_iff
  · exact exec_indexOutOfRange rfl habove (wordXNN_eq_ofNat_base_add rfl x)
  · exact exec_indexOutOfRange rfl habove (wordXNN_eq_ofNat_base_add rfl x)

theorem lowestKey_eq_none_iff (keys : Keys) : lowestKey keys = none ↔ keys = 0 := by
  refine ⟨lowestKey_eq_none keys, ?_⟩
  rintro rfl
  rfl

/-- Settles O58: the lowest key that is down, if any. -/
theorem keyWaitsForAKey : Obligations.KeyWaitsForAKey := by
  intro x s
  have hexec : exec (.key x) s = .next (effect (.key x) s) := exec_of_instrFault_eq_none rfl
  refine ⟨fun hnone => ?_, fun hdown => ?_⟩
  · rw [hexec, effect, (lowestKey_eq_none_iff _).2 hnone, Option.elim_none]
  · obtain ⟨k, hk⟩ := Option.ne_none_iff_exists'.1 (mt (lowestKey_eq_none_iff s.keys).1 hdown)
    obtain ⟨hkey, hlower⟩ := lowestKey_eq_some s.keys k hk
    rw [effect, hk, Option.elim_some] at hexec
    obtain ⟨t, he, hresult, hframe⟩ := completes_of_exec_eq_setV_advance hexec
    exact ⟨t, k.toNat, he, k.isLt, hkey, hlower, by rw [hresult, BitVec.toNat_setWidth_of_le (by decide)], hframe⟩

/-! ### The timers -/

theorem State.changesOnly_withDt_advance (s : State) (b : Byte) :
    s.changesOnly ({ s with dt := b } : State).advance [.delayTimer, .pc] := by
  apply State.changesOnly_of_fields <;> simp

theorem State.changesOnly_withSt_advance (s : State) (b : Byte) :
    s.changesOnly ({ s with st := b } : State).advance [.soundTimer, .pc] := by
  apply State.changesOnly_of_fields <;> simp

/-- Settles O60: each meaning writes its timer and advances, and the tick acts on the value written. -/
theorem movToTheTimers : Obligations.MovToTheTimers := by
  intro x s
  have hdelay : exec (.movDtVx x) s = .next ({ s with dt := s.getV x } : State).advance := rfl
  have hsound : exec (.movStVx x) s = .next ({ s with st := s.getV x } : State).advance := rfl
  refine ⟨⟨_, hdelay, rfl, rfl, s.changesOnly_withDt_advance _⟩, ⟨_, hsound, rfl, rfl, s.changesOnly_withSt_advance _⟩,
    fun w hf hd => ⟨_, step_of_exec_next hf hd hdelay, ?_⟩, fun w hf hd => ⟨_, step_of_exec_next hf hd hsound, ?_⟩⟩
  · rw [State.takeInput_dt, State.tick_dt, tickTimer_toNat, State.advance_dt]
  · rw [State.takeInput_st, State.tick_st, tickTimer_toNat, State.advance_st]

end Sys2Proof.Machine
end
